-- ==== Sys2Proof/Word.lean ====
section
/-! DEFINITION. The words of fixed width (00_scope.md R4, R6) and the two readings of a bit vector.

R6 writes `u(v)` for the unsigned and `s(v)` for the signed integer that a bit vector spells: they are
`BitVec.toNat` and `BitVec.toInt`. -/

namespace Sys2Proof

/-- One word of the codeword stream: `WORD_W` = 16 bits, fixed (R4, D3). -/
abbrev StreamWord := BitVec 16

/-- A bit number within a stream word (R12). -/
abbrev BitIndex := BitVec 4

/-- A register number of the host's register port (R18). -/
abbrev RegNo := BitVec 4

end Sys2Proof
end

