-- ==== Sys2Proof/Config.lean ====
section
/-! DEFINITION. What an implementation fixes: the parameters of 00_scope.md R4, the content of memory elements that nobody
wrote (20_memory.md R40, 93_implementation_defined.md U4), and what a buffer for the stream word holds (U8). -/

namespace Sys2Proof

/-- The open parameters of R4, each held as how far it lies above the least value R4 allows, so that every value of
this type is a legal configuration (notes/assumptions/1.md). -/
structure Params where
  /-- `LINK_W - 2`. -/
  linkExtra : Nat
  /-- `CNT_W - 1`. -/
  cntExtra : Nat
  /-- `WIDX_W - 1`. -/
  widxExtra : Nat
  /-- `REG_W - max(LINK_W, CNT_W, WIDX_W, 4)`. -/
  regExtra : Nat
deriving DecidableEq, Repr

/-- `LINK_W >= 2`: bits in one link-table entry (R4, D4). -/
abbrev Params.linkW (p : Params) : Nat := p.linkExtra + 2

/-- `NODE_W = LINK_W - 1`: bits in a node id (R4, D6). -/
abbrev Params.nodeW (p : Params) : Nat := p.linkExtra + 1

/-- `OUT_W = LINK_W`: bits in one output element (R4, D5). -/
abbrev Params.outW (p : Params) : Nat := p.linkW

/-- `CNT_W >= 1`: bits in `XSZ` and `PROD` (R4, D7). -/
abbrev Params.cntW (p : Params) : Nat := p.cntExtra + 1

/-- `WIDX_W >= 1`: bits in `HXSZ` and `WORDI` (R4, D7). -/
abbrev Params.widxW (p : Params) : Nat := p.widxExtra + 1

/-- `REG_W >= max(LINK_W, CNT_W, WIDX_W, 4)`: data width of the register port (R4, D10). -/
abbrev Params.regW (p : Params) : Nat := max (max p.linkW p.cntW) (max p.widxW 4) + p.regExtra

/-- The defaults of R4: `LINK_W` = `CNT_W` = `WIDX_W` = `REG_W` = 32. -/
def Params.default : Params := { linkExtra := 30, cntExtra := 31, widxExtra := 31, regExtra := 0 }

/-- FREE VALUE (U4, D22): what the stream word at an index holds before anybody wrote it (notes/assumptions/4.md). -/
opaque Config.unwrittenStream : Nat → StreamWord

/-- FREE VALUE (U4, D22): what the `w`-bit link entry at an index holds before anybody wrote it. -/
opaque Config.unwrittenLink (w : Nat) : Nat → BitVec w

/-- FREE VALUE (U6, D22): what the `w`-bit output element at an index holds before anybody wrote it. -/
opaque Config.unwrittenOut (w : Nat) : Nat → BitVec w

/-- FREE VALUE (10_state.md R27; U8): which of the earlier contents of the current stream word the engine uses at its
`k`-th stream read, counted from the oldest; a number beyond them is the content in memory (notes/assumptions/6.md). -/
opaque Config.bufferChoice : Nat → Nat

end Sys2Proof
end

