-- ==== Sys2Proof/Syntax.lean ====
section
/-! DEFINITION. The operations of the block, one constructor for each row of opcode_table.json (30_encoding.md R60),
the accesses of the host's register port, and the textual syntax of R59. -/

namespace Sys2Proof

/-- The complete operation set (R60). Operands are the integers the rules speak of; `Instr.wf` gives their ranges. -/
inductive Instr where
  /-- `LEAF` with the entry zero: the symbol 0 (R81, R53). -/
  | leafZero
  /-- `LEAF` with a negative entry; `v = -s(entry)` is the symbol (R81, R53). -/
  | leafNeg (v : Nat)
  /-- `LINK m`: an internal node with the children `m` and `m - 1` (R80, R52). -/
  | link (m : Nat)
  /-- `FETCH`: the first part of every step with `PROD < XSZ`; no encoding (R67). -/
  | fetch
  /-- `FINISH`: the loop exit; no encoding (R66). -/
  | finish
  /-- `TRAIL`: the trailing adjustment inside `FINISH`; no encoding (R69). -/
  | trail
  /-- `START`: a write to `CTRL` with data bit 0 set (R97, R58). -/
  | start
  /-- `REGWRITE`: any other register write (R95). -/
  | regWrite (n : RegNo) (d : Nat)
  /-- `REGREAD`: a register read (R96). -/
  | regRead (n : RegNo)
deriving DecidableEq, Repr

/-- One access of the host on the register port (R102): number, and for a write the data. -/
inductive RegAccess where
  | write (n : RegNo) (d : Nat)
  | read (n : RegNo)
deriving DecidableEq, Repr

/-- The mnemonic of opcode_table.json. -/
def Instr.mnemonic : Instr → String
  | .leafZero => "LEAF"
  | .leafNeg _ => "LEAF"
  | .link _ => "LINK"
  | .fetch => "FETCH"
  | .finish => "FINISH"
  | .trail => "TRAIL"
  | .start => "START"
  | .regWrite _ _ => "REGWRITE"
  | .regRead _ => "REGREAD"

/-- One line of a listing (R59): the node id, a colon, the entry. Operations that are no entry have none. -/
def Instr.listing (node : Nat) : Instr → Option String
  | .leafZero => some (toString node ++ ": LEAF 0")
  | .leafNeg v => some (toString node ++ ": LEAF " ++ toString v)
  | .link m => some (toString node ++ ": LINK " ++ toString m)
  | .fetch => none
  | .finish => none
  | .trail => none
  | .start => none
  | .regWrite _ _ => none
  | .regRead _ => none

end Sys2Proof
end

