-- ==== Sys2Proof/WellFormed.lean ====
section
/-! DEFINITION. Which operands an operation may carry, for given parameters. -/

namespace Sys2Proof

/-- The ranges of the operands.
`LEAF` negative: R53, `1 <= v <= 2^(LINK_W-1)` (the symbol 0 is the other row's).
`LINK`: R52, `1 <= m <= 2^(LINK_W-1) - 1`.
`REGWRITE`: `d` is `REG_W` bits (R95), and number 0 with data bit 0 set is `START`, not `REGWRITE` (R58, R60). -/
def Instr.wf (p : Params) : Instr → Bool
  | .leafZero => true
  | .leafNeg v => decide (1 ≤ v) && decide (v ≤ 2 ^ (p.linkW - 1))
  | .link m => decide (1 ≤ m) && decide (m ≤ 2 ^ (p.linkW - 1) - 1)
  | .fetch => true
  | .finish => true
  | .trail => true
  | .start => true
  | .regWrite n d => decide (d < 2 ^ p.regW) && !(n == 0 && d.testBit 0)
  | .regRead _ => true

end Sys2Proof
end

