-- ==== Sys2Proof/Decode.lean ====
section
/-! DEFINITION. The decoders of link-table entries and of register-port accesses, total and rejecting by name, and
after them the encoders, written from the same tables (30_encoding.md R50 to R60). -/

namespace Sys2Proof

/-- Why a code is no operation of the block. Every `LINK_W`-bit entry and every access that fits the port is one (R54). -/
inductive DecodeReject where
  /-- The number does not fit the 32 bits of opcode_table.json's words. -/
  | wordTooWide
  /-- The integer does not fit `LINK_W` bits signed and cannot be placed in `LINK` (20_memory.md R32, U13). -/
  | entryDoesNotFit
  /-- The data does not fit the `REG_W` bits of the register port (R95). -/
  | dataDoesNotFit
deriving DecidableEq, Repr

/-- R53: the symbol of a leaf entry, `neg_N(entry)` of R6: `(2^N - u(entry)) mod 2^N`. -/
def negN {w : Nat} (e : BitVec w) : BitVec w := BitVec.ofNat w ((2 ^ w - e.toNat) % 2 ^ w)

/-- R51: the class test, `s(entry) > 0`. -/
def isLinkEntry {w : Nat} (e : BitVec w) : Bool := decide (0 < e.toInt)

/-- R51 to R53, in the order of R60: the zero pattern, the sign bit, the rest. Every pattern decodes (R54). -/
def decodeEntry {w : Nat} (e : BitVec w) : Instr :=
  if e = 0 then .leafZero
  else if e.msb then .leafNeg (negN e).toNat
  else .link e.toNat

/-- R32: an integer can be placed in `LINK` when its two's complement spelling fits `LINK_W` bits. -/
def entryFits (p : Params) (e : Int) : Bool :=
  decide (-(2 : Int) ^ (p.linkW - 1) ≤ e) && decide (e < (2 : Int) ^ (p.linkW - 1))

/-- R50, U13: the operation that a signed integer of a link table stands for. -/
def decodeInteger (p : Params) (e : Int) : Except DecodeReject Instr :=
  if entryFits p e then .ok (decodeEntry (BitVec.ofInt p.linkW e)) else .error .entryDoesNotFit

/-- R58, R60: a register access is `START`, `REGWRITE` or `REGREAD`. -/
def decodeAccess (p : Params) : RegAccess → Except DecodeReject Instr
  | .write n d =>
    if d < 2 ^ p.regW then
      if n = 0 ∧ d.testBit 0 = true then .ok .start else .ok (.regWrite n d)
    else .error .dataDoesNotFit
  | .read n => .ok (.regRead n)

/-- What selects an operation that has an encoding (R60): the bits of a link-table entry, or a register access. -/
inductive Code where
  | entry (bits : Nat)
  | access (a : RegAccess)
deriving DecidableEq, Repr

/-- The decoder on raw numbers. -/
def decodeCode (p : Params) : Code → Except DecodeReject Instr
  | .entry bits => if bits < 2 ^ p.linkW then .ok (decodeEntry (BitVec.ofNat p.linkW bits)) else .error .wordTooWide
  | .access a => decodeAccess p a

/-- The word of opcode_table.json, in the default configuration, read as the link-table entry the engine fetches.
The block has no bytes (20_memory.md R35): an entry is one 32-bit number, and a word given in fewer bits has zeros above.
The row `START` gives the data of a register write, which no entry decoder reads (notes/assumptions/10.md). -/
def decodeTableWord (nbits w : Nat) : Option Instr :=
  if nbits ≤ 32 then
    match decodeCode Params.default (.entry w) with
    | .ok i => some i
    | .error _ => none
  else none

/-! ### The encoders -/

/-- R59: the signed integer that an entry's mnemonic stands for. -/
def entryInteger : Instr → Option Int
  | .leafZero => some 0
  | .leafNeg v => some (-(v : Int))
  | .link m => some (m : Int)
  | .fetch => none
  | .finish => none
  | .trail => none
  | .start => none
  | .regWrite _ _ => none
  | .regRead _ => none

/-- R50: the `LINK_W`-bit two's complement spelling of an entry. -/
def encodeEntry (p : Params) (i : Instr) : Option (BitVec p.linkW) := (entryInteger i).map (BitVec.ofInt p.linkW)

/-- R58, R95, R96: the register access of a host operation. `START` is written with its ignored data bits zero. -/
def encodeAccess : Instr → Option RegAccess
  | .start => some (.write 0 1)
  | .regWrite n d => some (.write n d)
  | .regRead n => some (.read n)
  | .leafZero => none
  | .leafNeg _ => none
  | .link _ => none
  | .fetch => none
  | .finish => none
  | .trail => none

/-- The code of an operation; `FETCH`, `FINISH` and `TRAIL` have none (R60). -/
def encode (p : Params) (i : Instr) : Option Code :=
  match encodeEntry p i with
  | some e => some (.entry e.toNat)
  | none => (encodeAccess i).map .access

end Sys2Proof
end

