-- ==== Sys2Proof/Machine/Memory.lean ====
section
/-! DEFINITION. One memory space: an element-addressed array (20_memory.md R30, R44), as a list of the elements that
somebody wrote, with strictly rising indices. An index that is not listed was never written: it has no value of its own
here, and the reader supplies the free initial content (R40, U4; notes/assumptions/4.md and 5.md). -/

namespace Sys2Proof.Machine

/-- The written elements of a space of `w`-bit elements. -/
abbrev Memory (w : Nat) := List (Nat × BitVec w)

/-- The element at an index, when somebody wrote it. -/
def Memory.find {w : Nat} : Memory w → Nat → Option (BitVec w)
  | [], _ => none
  | (b, x) :: rest, a => if a = b then some x else Memory.find rest a

/-- `MemRead(S, a)` of R44, given what an element holds that nobody wrote. -/
def Memory.read {w : Nat} (unwritten : Nat → BitVec w) (m : Memory w) (a : Nat) : BitVec w :=
  (m.find a).getD (unwritten a)

/-- `MemWrite(S, a, v)` of R44: replaces the whole element, keeps the indices rising. -/
def Memory.write {w : Nat} : Memory w → Nat → BitVec w → Memory w
  | [], a, v => [(a, v)]
  | (b, x) :: rest, a, v =>
    if a < b then (a, v) :: (b, x) :: rest
    else if a = b then (a, v) :: rest
    else (b, x) :: Memory.write rest a v

/-- Indices strictly rising. -/
def Memory.rising {w : Nat} : Memory w → Bool
  | [] => true
  | (a, _) :: rest => rest.all (fun c => decide (a < c.1)) && Memory.rising rest

/-- The canonical form: indices strictly rising, and each an index of the space. No listed element equals what an
unlisted one is, since an unlisted one is no value. -/
def Memory.wf {w : Nat} (bound : Nat) (m : Memory w) : Bool :=
  m.rising && m.all (fun c => decide (c.1 < bound))

end Sys2Proof.Machine
end

