-- ==== Sys2Proof/Machine/State.lean ====
section
/-! DEFINITION. The state of the block and its surroundings (10_state.md R10 to R29), as plain data. -/

namespace Sys2Proof.Machine

/-- `STATE`, what the engine is doing (10_state.md R16). -/
inductive Status where
  | idle
  | busy
  | done
  | fault
deriving DecidableEq, Repr

/-- `CAUSE`, the fault of the last decode; code 3 is reserved and never written (10_state.md R17, U10). -/
inductive Cause where
  | none
  | outOfBits
  | malformedTree
deriving DecidableEq, Repr

/-- The two faults the block raises (60_exceptions.md R110). -/
inductive Exc where
  | outOfBits
  | malformedTree
deriving DecidableEq, Repr

/-- The three memory spaces (20_memory.md R30). -/
inductive Space where
  | stream
  | link
  | out
deriving DecidableEq, Repr

/-- One move of an agent (00_scope.md R5). Moves are what the surroundings of the block do to it, in their order
(notes/assumptions/2.md). -/
inductive Move where
  /-- The engine's turn (40_sequencing.md R65). -/
  | engine
  /-- The host accesses a register (42_host_commands.md R95, R96). -/
  | access (a : RegAccess)
  /-- The reset event (70_reset_and_hazards.md R130). -/
  | reset
  /-- The platform writes a stream word (42_host_commands.md R100). -/
  | placeStream (a : Nat) (w : StreamWord)
  /-- The platform writes a link-table integer (R100; 20_memory.md R32). -/
  | placeLink (a : Nat) (e : Int)
  /-- The platform writes an output element (the model's choice, notes/assumptions/19.md). -/
  | placeOut (a : Nat) (v : Nat)
deriving DecidableEq, Repr

/-- What shows on a port of the block (42_host_commands.md R102); values as unsigned integers. -/
inductive PortEvent where
  /-- `l_addr`, `l_rdata`: a read of `LINK`. -/
  | linkRead (addr data : Nat)
  /-- `s_addr`, `s_rdata`: a read of `STREAM`. -/
  | streamRead (addr data : Nat)
  /-- `o_addr`, `o_wdata`: a write of `OUT`. -/
  | outWrite (addr data : Nat)
  /-- `reg_rdata`: the result of a `RegRead` of register `n`. -/
  | regData (n : RegNo) (data : Nat)
deriving DecidableEq, Repr

/-- The machine. The registers and spaces are those of 10_state.md R10; `params`, `agenda`, `ports`, `stale` and `draws` are
the model's own (notes/assumptions/1.md, 2.md, 3.md, 6.md). -/
structure State where
  /-- The parameters of 00_scope.md R4; no step changes them. -/
  params : Params
  /-- `NODE` (R11, R15): the program counter. -/
  node : BitVec params.nodeW
  /-- `BITI` (R12). -/
  biti : BitIndex
  /-- `WORDI` (R13). -/
  wordi : BitVec params.widxW
  /-- `PROD` (R14). -/
  prod : BitVec params.cntW
  /-- `XSZ` (R21). -/
  xsz : BitVec params.cntW
  /-- `HXSZ` (R22). -/
  hxsz : BitVec params.widxW
  /-- `LTLEN` (R23). -/
  ltlen : BitVec params.linkW
  /-- `STATE` (R16). -/
  status : Status
  /-- `CAUSE` (R17). -/
  cause : Cause
  /-- `STREAM` (20_memory.md R31). -/
  stream : Memory 16
  /-- `LINK` (20_memory.md R32). -/
  link : Memory params.linkW
  /-- `OUT` (20_memory.md R33). -/
  out : Memory params.outW
  /-- The contents that the current stream word had before a write during the decode, oldest first: what a private register
  for it may still hold (R27; 93_implementation_defined.md U8). -/
  stale : List StreamWord
  /-- How many stream reads there were: the number of the next free choice of that register's content. -/
  draws : Nat
  /-- The moves still to come, the next one first; the engine moves when there is none. -/
  agenda : List Move
  /-- What the latest step did on the ports, oldest first. -/
  ports : List PortEvent
deriving DecidableEq, Repr

/-- Why the machine stops with a fault. The block's own two faults are no stops: entering them is a next state
(60_exceptions.md R116). No instruction raises one of these. -/
inductive Fault where
  /-- The platform names an element index that the space does not have (20_memory.md R31 to R33). SAFE: the model stops
  where no rule says anything. -/
  | noSuchElement (sp : Space)
deriving DecidableEq, Repr

/-- Why a step has no meaning in the model. No instruction's meaning raises one of them. -/
inductive Refusal where
  /-- An instruction without a meaning yet, by the mnemonic of opcode_table.json. SAFE. No arm raises it. -/
  | notModelled (mnemonic : String)
  /-- The host or the platform offers a value wider than the register port or the element of the space (`none`: the
  register port). It cannot be written down in the hardware (93_implementation_defined.md U9, U13). SAFE. -/
  | valueDoesNotFit (sp : Option Space)
deriving DecidableEq, Repr

/-- 10_state.md R28 and 70_reset_and_hazards.md R130 for given parameters, with no element written and no move to come. -/
def State.resetWith (p : Params) : State :=
  { params := p
    node := 0
    biti := 15
    wordi := 0
    prod := 0
    xsz := 0
    hxsz := 0
    ltlen := 0
    status := .idle
    cause := .none
    stream := []
    link := []
    out := []
    stale := []
    draws := 0
    agenda := []
    ports := [] }

/-- The machine right after reset, in the default configuration of 00_scope.md R4. -/
def State.reset : State := State.resetWith Params.default

end Sys2Proof.Machine
end

