-- ==== Sys2Proof/Machine/Operands.lean ====
section
/-! DEFINITION. The operand forms: the children of a link, the symbol of a leaf, the fields of the register port. -/

namespace Sys2Proof.Machine

/-- R52, R83: the child id a bit selects, over the integers: `m` for 1, `m - 1` for 0. -/
def childOf (m : Nat) (b : Bool) : Nat := if b then m else m - 1

/-- R53: the output element of a symbol, `OUT_W` bits. -/
def symbolElem (p : Params) (v : Nat) : BitVec p.outW := BitVec.ofNat p.outW v

/-- R18, R95: the field of a register-port write, `d[w-1:0]` of `REG_W` bits; the bits above it are ignored. -/
def portField (p : Params) (w d : Nat) : BitVec w := (BitVec.ofNat p.regW d).setWidth w

/-- R18, R96: a field on the register port, zero-extended to `REG_W`. -/
def portData (p : Params) {w : Nat} (v : BitVec w) : BitVec p.regW := v.setWidth p.regW

end Sys2Proof.Machine
end

