-- ==== Sys2Proof/Machine/Flags.lean ====
section
/-! DEFINITION. The comparisons of 41_link_and_leaf.md R86, the `STATUS` word, and the status pins. There are no
condition codes: no comparison sets a flag (R86, 10_state.md R17). -/

namespace Sys2Proof.Machine

/-- R65: the loop condition `PROD < XSZ`, unsigned. -/
def loopGoes (s : State) : Bool := decide (s.prod.toNat < s.xsz.toNat)

/-- R69, D20: `PROD == XSZ - 1` over the integers; with `XSZ = 0` it is false. -/
def trailDue (s : State) : Bool := decide ((s.prod.toNat : Int) = (s.xsz.toNat : Int) - 1)

/-- R67: `NODE < LTLEN`, unsigned, `NODE_W` against `LINK_W` bits. -/
def nodeInTable (s : State) : Bool := decide (s.node.toNat < s.ltlen.toNat)

/-- R80: `WORDI < HXSZ`, unsigned. -/
def bitsLeft (s : State) : Bool := decide (s.wordi.toNat < s.hxsz.toNat)

/-- R16: the codes of `STATE`. -/
def statusCode : Status → BitVec 2
  | .idle => 0
  | .busy => 1
  | .done => 2
  | .fault => 3

/-- R17: the codes of `CAUSE`. -/
def causeCode : Cause → BitVec 2
  | .none => 0
  | .outOfBits => 1
  | .malformedTree => 2

/-- R20: `STATUS`, with `CAUSE` in bits 3:2 and `STATE` in bits 1:0. -/
def statusWord (s : State) : BitVec 4 := causeCode s.cause ++ statusCode s.status

/-- R102, R114: the output pin `busy`. -/
def busyPin (s : State) : Bool := s.status == .busy

/-- R102, R114: the output pin `done`. -/
def donePin (s : State) : Bool := s.status == .done

/-- R102, R114: the output pin `fault`. -/
def faultPin (s : State) : Bool := s.status == .fault

end Sys2Proof.Machine
end

