-- ==== Sys2Proof/Machine/Ops.lean ====
section
/-! DEFINITION. The operations the meanings share: the memory primitives of 00_scope.md R7, fault entry, the cursor,
emission of a symbol, the trailing read, the start of a decode, and the register port. -/

namespace Sys2Proof.Machine

/-! ### Memory primitives (20_memory.md R44) -/

/-- Records what shows on a port (R102). -/
def onPort (s : State) (ev : PortEvent) : State := { s with ports := s.ports ++ [ev] }

/-- `MemRead(STREAM, a)` (R31). -/
def streamWord (s : State) (a : Nat) : StreamWord := s.stream.read Config.unwrittenStream a

/-- `MemRead(LINK, a)` (R32). -/
def linkEntry (s : State) (a : Nat) : BitVec s.params.linkW := s.link.read (Config.unwrittenLink s.params.linkW) a

/-- The element of `OUT` at an index, as the platform reads it (R33, R100); the engine never does. -/
def outElem (s : State) (a : Nat) : BitVec s.params.outW := s.out.read (Config.unwrittenOut s.params.outW) a

/-- `StreamBit(w, b)` (R34): bit `b` of stream word `w`. -/
def streamBit (s : State) (w b : Nat) : Bool := (streamWord s w).getLsbD b

/-- `MemWrite(OUT, PROD, v)` (R33) and `PROD <- PROD + 1`: the store of R88, whose address is `PROD`, post-incremented. -/
def storeSymbol (s : State) (v : BitVec s.params.outW) : State :=
  { s with
    out := s.out.write s.prod.toNat v
    prod := s.prod + 1
    ports := s.ports ++ [.outWrite s.prod.toNat v.toNat] }

/-- The stream word of a `LINK` step (R80): `MemRead(STREAM, WORDI)`. After a write to that word during the decode
(70_reset_and_hazards.md R134) an implementation may use an earlier content (10_state.md R27), which one is free (U8). -/
def engineWord (s : State) : StreamWord := s.stale.getD (Config.bufferChoice s.draws) (streamWord s s.wordi.toNat)

/-! ### Taking a fault, and leaving it (60_exceptions.md) -/

/-- The code of a fault in `CAUSE` (R110, R17). -/
def excCause : Exc → Cause
  | .outOfBits => .outOfBits
  | .malformedTree => .malformedTree

/-- R116: fault entry, applied to the state the step began with, so that it discards every other write of the step.
There is no vector, no handler, no saved state. -/
def raise (x : Exc) (s : State) : State := { s with cause := excCause x, status := .fault }

/-- R97, R98: `START`. Every write before it is visible to the decode (20_memory.md R42), so no buffer is stale. There is no return from a fault (R118): this, or reset, is the only way out of it. -/
def startDecode (s : State) : State :=
  if s.status = .busy then s
  else { s with node := 0, biti := 15, wordi := 0, prod := 0, cause := .none, status := .busy, stale := [] }

/-! ### Parts of an engine step -/

/-- R67: the entry at `NODE`, after the node-range test. -/
def fetchEntry (s : State) : Except Exc (BitVec s.params.linkW) :=
  if nodeInTable s then .ok (linkEntry s s.node.toNat) else .error .malformedTree

/-- The link port after a fetch that read `e` (R88: the address is `NODE`). -/
def onLinkPort (s : State) (e : BitVec s.params.linkW) : State := onPort s (.linkRead s.node.toNat e.toNat)

/-- R84: the bit cursor moves one bit forward. In a new word no buffer is stale: a stale word lasts for sixteen bits (U8). -/
def advanceCursor (s : State) : State :=
  { s with
    biti := if s.biti = 0 then 15 else s.biti - 1
    wordi := if s.biti = 0 then s.wordi + 1 else s.wordi
    stale := if s.biti = 0 then [] else s.stale }

/-- R80 once a bit is there: the branch to a child, by bit `BITI` of the word (R34). The port shows the word used. -/
def followLink (m : Nat) (s : State) : State :=
  advanceCursor
    { onPort s (.streamRead s.wordi.toNat (engineWord s).toNat) with
      node := BitVec.ofNat s.params.nodeW (childOf m ((engineWord s).getLsbD s.biti.toNat))
      draws := s.draws + 1 }

/-- R81: one symbol goes out at `PROD`, and the walk returns to the root. -/
def emitSymbol (s : State) (v : BitVec s.params.outW) : State := { storeSymbol s v with node := 0 }

/-- R69: the body of `TRAIL`: the entry at `NODE`, whatever its class, is negated and goes out at `PROD`. -/
def trailing (s : State) : Except Exc State :=
  match fetchEntry s with
  | .error x => .error x
  | .ok e => .ok (storeSymbol (onLinkPort s e) (negN e))

/-! ### The register port (42_host_commands.md) -/

/-- R96: what a register reads as. -/
def readReg (n : RegNo) (s : State) : BitVec s.params.regW :=
  if n = 1 then portData s.params (statusWord s)
  else if n = 2 then portData s.params s.xsz
  else if n = 3 then portData s.params s.hxsz
  else if n = 4 then portData s.params s.ltlen
  else if n = 5 then portData s.params s.prod
  else if n = 6 then portData s.params s.node
  else if n = 7 then portData s.params s.wordi
  else if n = 8 then portData s.params s.biti
  else 0

/-- R95: a register write. Operand registers take it only while no decode runs; the others drop it. -/
def writeReg (n : RegNo) (d : Nat) (s : State) : State :=
  if n = 0 then (if d.testBit 0 then startDecode s else s)
  else if s.status = .busy then s
  else if n = 2 then { s with xsz := portField s.params s.params.cntW d }
  else if n = 3 then { s with hxsz := portField s.params s.params.widxW d }
  else if n = 4 then { s with ltlen := portField s.params s.params.linkW d }
  else s

end Sys2Proof.Machine
end

