-- ==== Sys2Proof/Machine/Entries.lean ====
section
/-! DEFINITION. The entry classes `LINK` and `LEAF` (41_link_and_leaf.md). Each meaning is the operation's own effect;
the step selects it only with `STATE = BUSY` and `PROD < XSZ` (R65; notes/assumptions/9.md). -/

namespace Sys2Proof.Machine

/-- R81 with the entry zero: the symbol 0. -/
def execLeafZero (s : State) : Host.Outcome State Fault Refusal := .next (emitSymbol s 0)

/-- R81 with a negative entry: the symbol `v`. -/
def execLeafNeg (v : Nat) (s : State) : Host.Outcome State Fault Refusal :=
  .next (emitSymbol s (symbolElem s.params v))

/-- R80, R111: `LINK m` takes one stream bit to a child, or raises `OutOfBits` before any stream access. -/
def execLink (m : Nat) (s : State) : Host.Outcome State Fault Refusal :=
  if bitsLeft s then .next (followLink m s) else .next (raise .outOfBits s)

end Sys2Proof.Machine
end

