-- ==== Sys2Proof/Machine/HostCommands.lean ====
section
/-! DEFINITION. The host's operations (42_host_commands.md). They need no privilege: there is one mode
(60_exceptions.md R120). -/

namespace Sys2Proof.Machine

/-- R97, R98: `START`. -/
def execStart (s : State) : Host.Outcome State Fault Refusal := .next (startDecode s)

/-- R95: `RegWrite(n, d)`. -/
def execRegWrite (n : RegNo) (d : Nat) (s : State) : Host.Outcome State Fault Refusal := .next (writeReg n d s)

/-- R96: `RegRead(n)` changes no state of the block; what it returns shows on `reg_rdata`. -/
def execRegRead (n : RegNo) (s : State) : Host.Outcome State Fault Refusal :=
  .next (onPort s (.regData n (readReg n s).toNat))

end Sys2Proof.Machine
end

