-- ==== Sys2Proof/Machine/Sequence.lean ====
section
/-! DEFINITION. The operations without an encoding: `FETCH`, `FINISH`, `TRAIL` (40_sequencing.md). -/

namespace Sys2Proof.Machine

/-- R67, R112: `FETCH` writes nothing; the entry it returns shows on the link port. Out of range it raises
`MalformedTree` before any access. -/
def execFetch (s : State) : Host.Outcome State Fault Refusal :=
  match fetchEntry s with
  | .ok e => .next (onLinkPort s e)
  | .error x => .next (raise x s)

/-- R66: `FINISH`, with `TRAIL` inside it when `PROD == XSZ - 1` (never, from the dispatch: R70). A fault of `TRAIL`
discards the write of `STATE` (R116). -/
def execFinish (s : State) : Host.Outcome State Fault Refusal :=
  if trailDue s then
    match trailing s with
    | .ok t => .next { t with status := .done }
    | .error x => .next (raise x s)
  else .next { s with status := .done }

/-- R69: `TRAIL`. -/
def execTrail (s : State) : Host.Outcome State Fault Refusal :=
  match trailing s with
  | .ok t => .next t
  | .error x => .next (raise x s)

end Sys2Proof.Machine
end

