-- ==== Sys2Proof/Machine/Dispatch.lean ====
section
/-! DEFINITION. One arm per operation of the block (30_encoding.md R60). -/

namespace Sys2Proof.Machine

def exec (i : Instr) (s : State) : Host.Outcome State Fault Refusal :=
  match i with
  | .leafZero => Sys2Proof.Machine.execLeafZero s
  | .leafNeg v => Sys2Proof.Machine.execLeafNeg v s
  | .link m => Sys2Proof.Machine.execLink m s
  | .fetch => Sys2Proof.Machine.execFetch s
  | .finish => Sys2Proof.Machine.execFinish s
  | .trail => Sys2Proof.Machine.execTrail s
  | .start => Sys2Proof.Machine.execStart s
  | .regWrite n d => Sys2Proof.Machine.execRegWrite n d s
  | .regRead n => Sys2Proof.Machine.execRegRead n s

end Sys2Proof.Machine
end

