-- ==== Sys2Proof/Machine/Engine.lean ====
section
/-! DEFINITION. The engine step (40_sequencing.md R65, R68), and what puts an entry where it is fetched next. -/

namespace Sys2Proof.Machine

/-- R65: one iteration of the decode loop, or the loop exit. The entry alone selects the class (R68); the tests come in
the order of 60_exceptions.md R115. -/
def engineStep (s : State) : Host.Outcome State Fault Refusal :=
  if loopGoes s then
    match fetchEntry s with
    | .ok e => exec (decodeEntry e) (onLinkPort s e)
    | .error x => .next (raise x s)
  else exec .finish s

/-- R65, R16: the engine has a step if and only if `STATE = BUSY`; else it is idle and keeps all its state. -/
def engineTurn (s : State) : Host.Outcome State Fault Refusal :=
  if s.status = .busy then engineStep s else .next s

/-- Puts the entry `w` at `NODE` and makes the engine's next step fetch it: a decode runs (so `CAUSE` is `NONE`, 10_state.md R17), one
more symbol is asked for, `NODE` is in the table, and no other agent moves first (notes/assumptions/11.md). -/
def placeNextEntry (s : State) (w : Nat) : State :=
  let goes := loopGoes s
  { s with
    status := .busy
    cause := .none
    prod := if goes then s.prod else 0
    xsz := if goes then s.xsz else 1
    ltlen := if nodeInTable s then s.ltlen else BitVec.ofNat s.params.linkW (s.node.toNat + 1)
    link := s.link.write s.node.toNat (BitVec.ofNat s.params.linkW w)
    agenda := [] }

end Sys2Proof.Machine
end

