-- ==== Sys2Proof/Machine/Schedule.lean ====
section
/-! DEFINITION. The moves of the other agents: the host's register accesses, the reset event, the platform's writes. -/

namespace Sys2Proof.Machine

/-- 70_reset_and_hazards.md R130, R131: every register of the block takes its reset value, a private one too; the memories stay. -/
def resetEvent (s : State) : State :=
  { s with
    node := 0
    biti := 15
    wordi := 0
    prod := 0
    xsz := 0
    hxsz := 0
    ltlen := 0
    status := .idle
    cause := .none
    stale := [] }

/-- R95, R96, R97: a register access is decoded and executed; data wider than the port cannot be offered. -/
def performAccess (a : RegAccess) (s : State) : Host.Outcome State Fault Refusal :=
  match decodeAccess s.params a with
  | .ok i => exec i s
  | .error _ => .refused (.valueDoesNotFit none)

/-- What a private register for the current stream word may hold beside the content in memory, after a write of
`STREAM[a]`: when that is the current word of a running decode, the content it had before (10_state.md R27;
93_implementation_defined.md U8; notes/assumptions/6.md). -/
def staleAfter (a : Nat) (s : State) : List StreamWord :=
  if s.status = .busy ∧ a = s.wordi.toNat ∧ a < s.hxsz.toNat then s.stale ++ [streamWord s a] else s.stale

/-- 42_host_commands.md R100: the platform writes `STREAM[a]`, at any time. When that breaks 70_reset_and_hazards.md R134,
the block still follows its rules step by step. -/
def placeStream (a : Nat) (w : StreamWord) (s : State) : Host.Outcome State Fault Refusal :=
  if a < 2 ^ s.params.widxW then .next { s with stream := s.stream.write a w, stale := staleAfter a s }
  else .fault (.noSuchElement .stream)

/-- R100 and 20_memory.md R32: the platform writes the integer `e` to `LINK[a]`, as its two's complement spelling, at any
time; the next fetch of the entry sees it (R43). An integer that does not fit cannot be placed (U13). -/
def placeLink (a : Nat) (e : Int) (s : State) : Host.Outcome State Fault Refusal :=
  if a < 2 ^ s.params.nodeW then
    if entryFits s.params e then .next { s with link := s.link.write a (BitVec.ofInt s.params.linkW e) }
    else .refused (.valueDoesNotFit (some .link))
  else .fault (.noSuchElement .link)

/-- The platform writes `OUT[a]`, at any time. DESIGN CHOICE (notes/assumptions/19.md): 10_state.md R10 names only `LEAF` and
`TRAIL` as writers of `OUT` and R100 only a reader, while R28 speaks of the content before the platform writes it; whether
and when the platform may write is left open. 20_memory.md R41 orders its accesses with the engine's. -/
def placeOut (a : Nat) (v : Nat) (s : State) : Host.Outcome State Fault Refusal :=
  if a < 2 ^ s.params.cntW then
    if v < 2 ^ s.params.outW then .next { s with out := s.out.write a (BitVec.ofNat s.params.outW v) }
    else .refused (.valueDoesNotFit (some .out))
  else .fault (.noSuchElement .out)

/-- One move of an agent. -/
def perform (m : Move) (s : State) : Host.Outcome State Fault Refusal :=
  match m with
  | .engine => engineTurn s
  | .access a => performAccess a s
  | .reset => .next (resetEvent s)
  | .placeStream a w => placeStream a w s
  | .placeLink a e => placeLink a e s
  | .placeOut a v => placeOut a v s

/-- The move that comes next: the head of the agenda, or the engine's turn. -/
def nextMove (s : State) : Move :=
  match s.agenda with
  | [] => .engine
  | m :: _ => m

/-- The state in which that move is made: it has left the agenda, and the ports of the step before are quiet. -/
def beginStep (s : State) : State := { s with agenda := s.agenda.tail, ports := [] }

end Sys2Proof.Machine
end

