-- ==== Sys2Proof/Machine/Step.lean ====
section
/-! DEFINITION. One step of the machine: the next move of the agenda, or the engine's turn (00_scope.md R5). -/

namespace Sys2Proof.Machine

/-- One atomic step of one agent (R5). -/
def step (s : State) : Host.Outcome State Fault Refusal := perform (nextMove s) (beginStep s)

/-- The state whose next step fetches and runs the entry `w` (notes/assumptions/11.md). A word given in fewer bits than
an entry has zeros above them. -/
def State.withFetchWord (s : State) (nbits w : Nat) : State := placeNextEntry s (w % 2 ^ nbits)

end Sys2Proof.Machine
end

