-- ==== Sys2Proof/Safety.lean ====
section
/-! DEFINITION. The terms in which claims speak of the machine: readings of a state as integers, frames, the invariant,
well-formed tables, codewords and messages, and what counts as a successful end. -/

namespace Sys2Proof.Machine

/-! ### Readings -/

/-- 10_state.md R29 item 4: the number of stream bits consumed since `START`, `16 * WORDI + (15 - BITI)`. -/
def bitsConsumed (s : State) : Nat := 16 * s.wordi.toNat + (15 - s.biti.toNat)

/-- 20_memory.md R34: the `k`-th bit of the stream, `StreamBit(k div 16, 15 - (k mod 16))`. -/
def bitAt (s : State) (k : Nat) : Bool := streamBit s (k / 16) (15 - k % 16)

/-- `s(LINK[n])`: the signed integer at a node (30_encoding.md R50). -/
def entryAt (s : State) (n : Nat) : Int := (linkEntry s n).toInt

/-- `u(OUT[a])`. -/
def outAt (s : State) (a : Nat) : Nat := (outElem s a).toNat

/-- `k` steps of the machine; a stop ends them. -/
def after : Nat → State → Host.Outcome State Fault Refusal
  | 0, s => .next s
  | k + 1, s =>
    match step s with
    | .next t => after k t
    | .fault r => .fault r
    | .refused r => .refused r

/-- 40_sequencing.md R71: how many steps the engine has left at most in a running decode: one for each bit that can still
be consumed, one for each symbol asked for, one for the end. -/
def stepsLeft (s : State) : Nat :=
  if s.status = .busy then 16 * s.hxsz.toNat - bitsConsumed s + (s.xsz.toNat - s.prod.toNat) + 1 else 0

/-- How many of the next `k` moves are the engine's; it has the turn when the agenda is empty (notes/assumptions/2.md). -/
def engineMoves : Nat → List Move → Nat
  | 0, _ => 0
  | k + 1, [] => engineMoves k [] + 1
  | k + 1, m :: rest => engineMoves k rest + if m = .engine then 1 else 0

/-- 60_exceptions.md R117: the premise of a claim about a decode's output. `FAULT` is never a successful end. -/
def Succeeded (s : State) : Prop := s.status = .done

/-! ### Frames -/

/-- The parts of a state. -/
inductive Part where
  | params | node | biti | wordi | prod | xsz | hxsz | ltlen | status | cause
  | stream | link | out | stale | draws | agenda | ports
deriving DecidableEq, Repr

/-- A part is the same in two states; a space is the same when each of its elements reads the same. -/
def Same (s t : State) : Part → Prop
  | .params => t.params = s.params
  | .node => t.node.toNat = s.node.toNat
  | .biti => t.biti = s.biti
  | .wordi => t.wordi.toNat = s.wordi.toNat
  | .prod => t.prod.toNat = s.prod.toNat
  | .xsz => t.xsz.toNat = s.xsz.toNat
  | .hxsz => t.hxsz.toNat = s.hxsz.toNat
  | .ltlen => t.ltlen.toNat = s.ltlen.toNat
  | .status => t.status = s.status
  | .cause => t.cause = s.cause
  | .stream => ∀ a, streamWord t a = streamWord s a
  | .link => ∀ a, (linkEntry t a).toNat = (linkEntry s a).toNat
  | .out => ∀ a, outAt t a = outAt s a
  | .stale => t.stale = s.stale
  | .draws => t.draws = s.draws
  | .agenda => t.agenda = s.agenda
  | .ports => t.ports = s.ports

/-- Every part but the listed ones is the same. -/
def ChangesOnly (parts : List Part) (s t : State) : Prop := ∀ p, p ∉ parts → Same s t p

/-- Every output element but the one at `a` reads the same. -/
def OutChangesOnlyAt (a : Nat) (s t : State) : Prop := ∀ b, b ≠ a → outAt t b = outAt s b

/-! ### The invariant -/

/-- What holds of the memories: canonical form, with indices of the width that 20_memory.md R31 to R33 give. -/
def MemoriesOk (s : State) : Prop :=
  s.stream.wf (2 ^ s.params.widxW) = true ∧ s.link.wf (2 ^ s.params.nodeW) = true ∧ s.out.wf (2 ^ s.params.cntW) = true

/-- 10_state.md R29 items 1, 3, 6 and 7, for the values the operand registers have during the decode. -/
structure DecodeInv (s : State) : Prop where
  cursor_le : s.wordi.toNat ≤ s.hxsz.toNat
  prod_le : s.prod.toNat ≤ s.xsz.toNat
  at_end : s.wordi.toNat = s.hxsz.toNat → s.biti = 15
  at_exit : s.xsz.toNat ≤ s.prod.toNat → s.node.toNat = 0

/-- The invariant that every step keeps: the memories' form, 10_state.md R17 (a cause exactly in `FAULT`), and R29
while a decode runs. -/
structure Inv (s : State) : Prop where
  memories : MemoriesOk s
  cause_iff : s.cause ≠ .none ↔ s.status = .fault
  decode : s.status = .busy → DecodeInv s

/-! ### Tables, codewords, messages -/

/-- 30_encoding.md R61: from a node on, following both children of every link, every node is below `LTLEN` and no path
meets a node twice, that is, the part reached is a finite binary tree with leaves at its ends. -/
inductive WellFormedTree (s : State) : Nat → Prop
  | leaf {n : Nat} : n < s.ltlen.toNat → entryAt s n ≤ 0 → WellFormedTree s n
  | link {n : Nat} : n < s.ltlen.toNat → 0 < entryAt s n → WellFormedTree s (entryAt s n).toNat →
      WellFormedTree s ((entryAt s n).toNat - 1) → WellFormedTree s n

/-- 30_encoding.md R56: from node `n` and bit number `k` the bits lead to a leaf with the symbol `v`, and bit number `k'`
is the next; bit 1 selects child `m`, bit 0 child `m - 1`. `Codeword s 0 k v k'` is one whole codeword. -/
inductive Codeword (s : State) : Nat → Nat → Int → Nat → Prop
  | leaf {n k : Nat} : n < s.ltlen.toNat → entryAt s n ≤ 0 → Codeword s n k (-entryAt s n) k
  | link {n k k' : Nat} {v : Int} : n < s.ltlen.toNat → 0 < entryAt s n → k < 16 * s.hxsz.toNat →
      Codeword s (if bitAt s k then (entryAt s n).toNat else (entryAt s n).toNat - 1) (k + 1) v k' → Codeword s n k v k'

/-- R56: the codewords of a list of symbols, one after the other, from bit number `k` to `k'`. -/
inductive Message (s : State) : Nat → List Int → Nat → Prop
  | nil {k : Nat} : Message s k [] k
  | cons {k k' k'' : Nat} {v : Int} {vs : List Int} : Codeword s 0 k v k' → Message s k' vs k'' → Message s k (v :: vs) k''

/-- Two states give a decode the same inputs (40_sequencing.md R73): the operands, and the elements of the usable
extents `STREAM[0..HXSZ-1]` and `LINK[0..LTLEN-1]` (20_memory.md R39). -/
structure SameInputs (s t : State) : Prop where
  params : t.params = s.params
  xsz : t.xsz.toNat = s.xsz.toNat
  hxsz : t.hxsz.toNat = s.hxsz.toNat
  ltlen : t.ltlen.toNat = s.ltlen.toNat
  stream : ∀ a, a < s.hxsz.toNat → streamWord t a = streamWord s a
  link : ∀ a, a < s.ltlen.toNat → (linkEntry t a).toNat = (linkEntry s a).toNat

end Sys2Proof.Machine
end

