-- ==== Sys2Proof/Certificates/Slice0/Obligations.lean ====
section
/-! DEFINITION. The statements for the provers. Each docstring names the rule of spec/ that the statement formalises. -/

open Sys2Proof Sys2Proof.Machine

/-! ### Encodings (30_encoding.md) -/

/-- Sanity: the words of 95_test_vectors.md V1 and of its programs, written out bit by bit, decode to what they stand for. -/
def Obligations.TableWordsDecode : Prop :=
  decodeTableWord 32 0b00000000000000000000000000000000 = some .leafZero ∧
  decodeTableWord 32 0b00000000000000000000000000000001 = some (.link 1) ∧
  decodeTableWord 32 0b00000000000000000000000000000010 = some (.link 2) ∧
  decodeTableWord 32 0b01111111111111111111111111111111 = some (.link 2147483647) ∧
  decodeTableWord 32 0b10000000000000000000000000000000 = some (.leafNeg 2147483648) ∧
  decodeTableWord 32 0b10000000000000000000000000000001 = some (.leafNeg 2147483647) ∧
  decodeTableWord 32 0b11111111111111111111111111111001 = some (.leafNeg 7) ∧
  decodeAccess Params.default (.write 0 0b11) = .ok .start ∧
  decodeAccess Params.default (.write 0 0b10) = .ok (.regWrite 0 2) ∧
  decodeAccess Params.default (.write 2 0b101) = .ok (.regWrite 2 5) ∧
  decodeAccess Params.default (.read 8) = .ok (.regRead 8)

/-- R51, R52, R53, R54: the class of an entry of any width is settled by its sign, each pattern is a `LINK` or a `LEAF`,
and the operand is the signed integer or its negation; in bits, a `LINK` has a clear sign bit and another bit set. -/
def Obligations.EntryClassAndOperand : Prop :=
  ∀ (w : Nat) (e : BitVec w),
    (0 < e.toInt → ∃ m : Nat, decodeEntry e = .link m ∧ (m : Int) = e.toInt ∧ m = e.toNat) ∧
    (e.toInt < 0 → ∃ v : Nat, decodeEntry e = .leafNeg v ∧ (v : Int) = -e.toInt ∧ v = (negN e).toNat) ∧
    (e.toInt = 0 → decodeEntry e = .leafZero) ∧
    ((∃ m, decodeEntry e = .link m) ↔ e.msb = false ∧ e ≠ 0)

/-- R52, R53: what decodes from an entry of `LINK_W` bits has its operand in the range of its class. -/
def Obligations.DecodedEntryIsWellFormed : Prop :=
  ∀ (p : Params) (e : BitVec p.linkW), (decodeEntry e).wf p = true

/-- Decode of encode is the identity, for every well-formed operation that has an encoding, in every configuration. -/
def Obligations.DecodeOfEncode : Prop :=
  ∀ (p : Params) (i : Instr) (c : Code), i.wf p = true → encode p i = some c → decodeCode p c = .ok i

/-- Each entry is the spelling of the operation it decodes to: no bit of an entry is dropped. -/
def Obligations.EncodeOfDecodedEntry : Prop :=
  ∀ (p : Params) (e : BitVec p.linkW), encodeEntry p (decodeEntry e) = some e

/-! ### The entry classes (41_link_and_leaf.md) -/

/-- The row `LEAF` zero: the symbol 0 goes out; everything else stays. -/
def Obligations.LeafZeroEmitsZero : Prop :=
  ∀ s : State, s.prod.toNat < s.xsz.toNat →
    ∃ t, exec .leafZero s = .next t ∧
      outAt t s.prod.toNat = 0 ∧ t.prod.toNat = s.prod.toNat + 1 ∧ t.node.toNat = 0 ∧
      t.ports = s.ports ++ [.outWrite s.prod.toNat 0] ∧
      OutChangesOnlyAt s.prod.toNat s t ∧ ChangesOnly [.node, .prod, .out, .ports] s t

/-- The row `LEAF` negative: the symbol `v` goes out exactly; everything else stays. -/
def Obligations.LeafNegEmitsSymbol : Prop :=
  ∀ (s : State) (v : Nat), (Instr.leafNeg v).wf s.params = true → s.prod.toNat < s.xsz.toNat →
    ∃ t, exec (.leafNeg v) s = .next t ∧
      outAt t s.prod.toNat = v ∧ t.prod.toNat = s.prod.toNat + 1 ∧ t.node.toNat = 0 ∧
      t.ports = s.ports ++ [.outWrite s.prod.toNat v] ∧
      OutChangesOnlyAt s.prod.toNat s t ∧ ChangesOnly [.node, .prod, .out, .ports] s t

/-- R81, for every leaf entry: the negation of the entry goes out at `PROD`, `PROD` goes up by one, `NODE` is 0; nothing
else changes, no stream word is read, and `STATE` stays even when `PROD` reaches `XSZ`. -/
def Obligations.LeafEntryEmitsNegation : Prop :=
  ∀ (s : State) (e : BitVec s.params.linkW), e.toInt ≤ 0 → s.prod.toNat < s.xsz.toNat →
    ∃ t, exec (decodeEntry e) s = .next t ∧
      (outAt t s.prod.toNat : Int) = -e.toInt ∧ t.prod.toNat = s.prod.toNat + 1 ∧ t.node.toNat = 0 ∧
      t.ports = s.ports ++ [.outWrite s.prod.toNat (negN e).toNat] ∧
      OutChangesOnlyAt s.prod.toNat s t ∧ ChangesOnly [.node, .prod, .out, .ports] s t

/-- R80, R84: `LINK m` with a bit left takes the child that the bit at the cursor selects and moves the cursor one bit
forward; with none left it raises `OutOfBits` and writes nothing else, and the stream port stays quiet. The word is the
one in memory; only after a write to it that breaks R134 (`stale` is then not empty) may it be an earlier content
(notes/assumptions/6.md). -/
def Obligations.LinkTakesChildOrRaises : Prop :=
  ∀ (s : State) (m : Nat), (Instr.link m).wf s.params = true →
    (s.wordi.toNat < s.hxsz.toNat →
      ∃ t w, exec (.link m) s = .next t ∧ (w = streamWord s s.wordi.toNat ∨ w ∈ s.stale) ∧
        t.node.toNat = (if w.getLsbD s.biti.toNat then m else m - 1) ∧
        (s.biti.toNat = 0 → t.biti.toNat = 15 ∧ t.wordi.toNat = s.wordi.toNat + 1) ∧
        (s.biti.toNat ≠ 0 → t.biti.toNat = s.biti.toNat - 1 ∧ t.wordi.toNat = s.wordi.toNat) ∧
        t.ports = s.ports ++ [.streamRead s.wordi.toNat w.toNat] ∧
        t.stale = (if s.biti.toNat = 0 then [] else s.stale) ∧
        ChangesOnly [.node, .biti, .wordi, .stale, .draws, .ports] s t) ∧
    (s.hxsz.toNat ≤ s.wordi.toNat →
      ∃ t, exec (.link m) s = .next t ∧ t.status = .fault ∧ t.cause = .outOfBits ∧
        ChangesOnly [.status, .cause] s t)

/-- R34 and R29 item 4: the count of bits consumed goes up by one, and the bit that `LINK` reads is the bit of the stream
with that number, while R134 is kept for the current word (notes/assumptions/6.md). -/
def Obligations.LinkConsumesNextStreamBit : Prop :=
  ∀ (s : State) (m : Nat), (Instr.link m).wf s.params = true → s.wordi.toNat < s.hxsz.toNat →
    ∃ t, exec (.link m) s = .next t ∧ bitsConsumed t = bitsConsumed s + 1 ∧
      (s.stale = [] → t.node.toNat = (if bitAt s (bitsConsumed s) then m else m - 1))

/-! ### Sequencing (40_sequencing.md) -/

/-- R67: `FETCH` returns the entry at `NODE` and writes nothing, or raises `MalformedTree` with no read of the table;
with `LTLEN` at least 2^`NODE_W` it never faults. -/
def Obligations.FetchReturnsOrRaises : Prop :=
  ∀ s : State,
    (s.node.toNat < s.ltlen.toNat →
      ∃ t, exec .fetch s = .next t ∧
        t.ports = s.ports ++ [.linkRead s.node.toNat (linkEntry s s.node.toNat).toNat] ∧ ChangesOnly [.ports] s t) ∧
    (s.ltlen.toNat ≤ s.node.toNat →
      ∃ t, exec .fetch s = .next t ∧ t.status = .fault ∧ t.cause = .malformedTree ∧
        ChangesOnly [.status, .cause] s t) ∧
    (2 ^ s.params.nodeW ≤ s.ltlen.toNat → s.node.toNat < s.ltlen.toNat)

/-- R66: `FINISH` sets `STATE` to `DONE` and changes nothing else, unless exactly one symbol is outstanding; then it
runs `TRAIL` first, whose fault discards the write of `STATE` (R116). -/
def Obligations.FinishEndsDecode : Prop :=
  ∀ s : State,
    (s.prod.toNat + 1 ≠ s.xsz.toNat →
      ∃ t, exec .finish s = .next t ∧ t.status = .done ∧ ChangesOnly [.status] s t) ∧
    (s.prod.toNat + 1 = s.xsz.toNat → s.node.toNat < s.ltlen.toNat →
      ∃ t u, exec .trail s = .next u ∧ exec .finish s = .next t ∧ t.status = .done ∧ ChangesOnly [.status] u t) ∧
    (s.prod.toNat + 1 = s.xsz.toNat → s.ltlen.toNat ≤ s.node.toNat →
      ∃ t, exec .finish s = .next t ∧ t.status = .fault ∧ t.cause = .malformedTree ∧
        ChangesOnly [.status, .cause] s t)

/-- R69: `TRAIL` is due over the integers, with no wrap at `XSZ = 0`; where exactly one symbol is outstanding, it emits the negation of the entry at `NODE` whatever its class,
reads no bit and leaves `NODE`; out of the table it raises `MalformedTree`. -/
def Obligations.TrailEmitsNegation : Prop :=
  ∀ s : State, (trailDue s = true ↔ s.prod.toNat + 1 = s.xsz.toNat) ∧
    (s.prod.toNat + 1 = s.xsz.toNat → s.node.toNat < s.ltlen.toNat →
      ∃ t, exec .trail s = .next t ∧
        outAt t s.prod.toNat =
          (2 ^ s.params.linkW - (linkEntry s s.node.toNat).toNat) % 2 ^ s.params.linkW ∧
        t.prod.toNat = s.prod.toNat + 1 ∧
        t.ports = s.ports ++ [.linkRead s.node.toNat (linkEntry s s.node.toNat).toNat,
          .outWrite s.prod.toNat (outAt t s.prod.toNat)] ∧
        OutChangesOnlyAt s.prod.toNat s t ∧ ChangesOnly [.prod, .out, .ports] s t) ∧
    (s.prod.toNat + 1 = s.xsz.toNat → s.ltlen.toNat ≤ s.node.toNat →
      ∃ t, exec .trail s = .next t ∧ t.status = .fault ∧ t.cause = .malformedTree ∧
        ChangesOnly [.status, .cause] s t)

/-- R70: from the dispatch `TRAIL` never fires: an engine step that finds `PROD >= XSZ` accesses no memory and only ends
the decode. -/
def Obligations.LoopExitNeverTrails : Prop :=
  ∀ s : State, nextMove s = .engine → s.status = .busy → s.xsz.toNat ≤ s.prod.toNat →
    trailDue s = false ∧
    ∃ t, step s = .next t ∧ t.status = .done ∧ t.ports = [] ∧ t.agenda = s.agenda.tail ∧
      ChangesOnly [.status, .agenda, .ports] s t

/-- R65, R68: when the engine moves next (whatever moves come after it) and a decode runs, the step is `FETCH` and then
the operation that the fetched entry decodes to. -/
def Obligations.EngineStepRunsDecodedEntry : Prop :=
  ∀ (s : State) (i : Instr), nextMove s = .engine → s.status = .busy → s.prod.toNat < s.xsz.toNat →
    s.node.toNat < s.ltlen.toNat → decodeEntry (linkEntry s s.node.toNat) = i →
    ∃ f, exec .fetch (beginStep s) = .next f ∧ step s = exec i f ∧
      f.ports = [.linkRead s.node.toNat (linkEntry s s.node.toNat).toNat] ∧ f.agenda = s.agenda.tail ∧
      ChangesOnly [.agenda, .ports] s f

/-- The word put where the next step fetches is the one that the next step runs, from any state (the model's own
operation, notes/assumptions/11.md). -/
def Obligations.PlacedWordRunsNext : Prop :=
  ∀ (s : State) (nbits w : Nat),
    ∃ f, exec .fetch (beginStep (s.withFetchWord nbits w)) = .next f ∧
      step (s.withFetchWord nbits w) = exec (decodeEntry (BitVec.ofNat s.params.linkW (w % 2 ^ nbits))) f

/-- R115: the order of the tests of an engine step: the loop condition, the node range, and only for a positive entry the
exhaustion of the stream; a leaf never faults, and a host step raises nothing. -/
def Obligations.FaultTestsInOrder : Prop :=
  (∀ (s : State) (n : RegNo) (d : Nat) (i : Instr), i = .start ∨ i = .regWrite n d ∨ i = .regRead n →
    ∃ t, exec i s = .next t ∧ (t.status = .fault → s.status = .fault)) ∧
  ∀ s : State, nextMove s = .engine → s.status = .busy →
    ∃ t, step s = .next t ∧
      (s.xsz.toNat ≤ s.prod.toNat → t.status = .done) ∧
      (s.prod.toNat < s.xsz.toNat → s.ltlen.toNat ≤ s.node.toNat →
        t.status = .fault ∧ t.cause = .malformedTree) ∧
      (s.prod.toNat < s.xsz.toNat → s.node.toNat < s.ltlen.toNat → 0 < entryAt s s.node.toNat →
        s.hxsz.toNat ≤ s.wordi.toNat → t.status = .fault ∧ t.cause = .outOfBits) ∧
      (s.prod.toNat < s.xsz.toNat → s.node.toNat < s.ltlen.toNat → 0 < entryAt s s.node.toNat →
        s.wordi.toNat < s.hxsz.toNat → t.status = .busy ∧ t.cause = s.cause) ∧
      (s.prod.toNat < s.xsz.toNat → s.node.toNat < s.ltlen.toNat → entryAt s s.node.toNat ≤ 0 →
        t.status = .busy ∧ t.cause = s.cause)

/-- R16, R114: while no decode runs the engine is idle and keeps all its state; that its turn is then a step which changes
nothing is the model's form (notes/assumptions/8.md). -/
def Obligations.IdleEngineKeepsState : Prop :=
  ∀ s : State, nextMove s = .engine → s.status ≠ .busy →
    ∃ t, step s = .next t ∧ t.ports = [] ∧ t.agenda = s.agenda.tail ∧ ChangesOnly [.agenda, .ports] s t

/-- R55: a link succeeds and sets `NODE` to the child that the bit selects; when that is outside the table, the engine's next
step raises `MalformedTree`, with that node, the cursor after the bit, and the symbols so far.The bit is the stream's
next one unless the word is stale (notes/assumptions/6.md). -/
def Obligations.LinkBeyondTableFaultsNext : Prop :=
  ∀ s : State, nextMove s = .engine → s.status = .busy → s.prod.toNat < s.xsz.toNat → s.node.toNat < s.ltlen.toNat →
    0 < entryAt s s.node.toNat → s.wordi.toNat < s.hxsz.toNat →
    ∃ t b, step s = .next t ∧ t.status = .busy ∧ t.node.toNat = childOf (entryAt s s.node.toNat).toNat b ∧
      (s.stale = [] → b = bitAt s (bitsConsumed s)) ∧
      (s.ltlen.toNat ≤ t.node.toNat → nextMove t = .engine →
        ∃ u, step t = .next u ∧ u.status = .fault ∧ u.cause = .malformedTree ∧ u.node.toNat = t.node.toNat ∧
          bitsConsumed u = bitsConsumed s + 1 ∧ u.prod.toNat = s.prod.toNat)

/-! ### The host (42_host_commands.md) -/

/-- R97: `START`, a write to register 0 with data bit 0 set, begins a decode from every state but `BUSY`; the operands
and the memories stay, and no memory is accessed. That nothing is stale afterwards is the model's form of R42
(notes/assumptions/6.md). -/
def Obligations.StartBeginsDecode : Prop :=
  ∀ s : State, s.status ≠ .busy → (∀ d, d % 2 = 1 → exec (.regWrite 0 d) s = exec .start s) ∧
    ∃ t, exec .start s = .next t ∧ t.node.toNat = 0 ∧ t.biti.toNat = 15 ∧ t.wordi.toNat = 0 ∧ t.prod.toNat = 0 ∧
      t.cause = .none ∧ t.status = .busy ∧ t.stale = [] ∧
      ChangesOnly [.node, .biti, .wordi, .prod, .cause, .status, .stale] s t

/-- R98: `START` while a decode runs does nothing. -/
def Obligations.StartWhileBusyIgnored : Prop :=
  ∀ s : State, s.status = .busy → exec .start s = .next s

/-- R95: `RegWrite(n, d)` for every register number: `CTRL`, the three operand registers, and the numbers that drop the
write; while a decode runs an operand write is dropped whole. -/
def Obligations.RegWriteFollowsMap : Prop :=
  ∀ (s : State) (n : RegNo) (d : Nat), d < 2 ^ s.params.regW →
    (n = 0 → d % 2 = 1 → exec (.regWrite n d) s = exec .start s) ∧
    (n = 0 → d % 2 = 0 → exec (.regWrite n d) s = .next s) ∧
    (n ≠ 0 → s.status = .busy → exec (.regWrite n d) s = .next s) ∧
    (n = 2 → s.status ≠ .busy →
      ∃ t, exec (.regWrite n d) s = .next t ∧ t.xsz.toNat = d % 2 ^ s.params.cntW ∧ ChangesOnly [.xsz] s t) ∧
    (n = 3 → s.status ≠ .busy →
      ∃ t, exec (.regWrite n d) s = .next t ∧ t.hxsz.toNat = d % 2 ^ s.params.widxW ∧ ChangesOnly [.hxsz] s t) ∧
    (n = 4 → s.status ≠ .busy →
      ∃ t, exec (.regWrite n d) s = .next t ∧ t.ltlen.toNat = d % 2 ^ s.params.linkW ∧ ChangesOnly [.ltlen] s t) ∧
    (n = 1 ∨ 5 ≤ n.toNat → exec (.regWrite n d) s = .next s)

/-- R96, for every register number: what a read shows on the register port, whole, and that nothing else changes. -/
def Obligations.RegReadReturnsMap : Prop :=
  ∀ (s : State) (n : RegNo), ∃ t v, exec (.regRead n) s = .next t ∧
    t.ports = s.ports ++ [.regData n v] ∧ ChangesOnly [.ports] s t ∧
    (n.toNat = 0 → v = 0) ∧
    (n.toNat = 1 → v = 4 * (causeCode s.cause).toNat + (statusCode s.status).toNat) ∧
    (n.toNat = 2 → v = s.xsz.toNat) ∧ (n.toNat = 3 → v = s.hxsz.toNat) ∧ (n.toNat = 4 → v = s.ltlen.toNat) ∧
    (n.toNat = 5 → v = s.prod.toNat) ∧ (n.toNat = 6 → v = s.node.toNat) ∧ (n.toNat = 7 → v = s.wordi.toNat) ∧
    (n.toNat = 8 → v = s.biti.toNat) ∧ (9 ≤ n.toNat → v = 0)

/-- R20, with the model's invariant: the values that a read of `STATUS` can return, and that a write of it is ignored. -/
def Obligations.StatusReadsLegalValue : Prop :=
  ∀ s : State, Inv s →
    (∃ t v, exec (.regRead 1) s = .next t ∧ t.ports = s.ports ++ [.regData 1 v] ∧
      (v = 0x0 ∧ s.status = .idle ∨ v = 0x1 ∧ s.status = .busy ∨ v = 0x2 ∧ s.status = .done ∨
        v = 0x7 ∧ s.status = .fault ∧ s.cause = .outOfBits ∨
        v = 0xB ∧ s.status = .fault ∧ s.cause = .malformedTree)) ∧
    ∀ d, exec (.regWrite 1 d) s = .next s

/-- R18, R21, R22, R23: an operand register written while no decode runs reads back as its field of the data. -/
def Obligations.OperandWriteReadsBack : Prop :=
  ∀ (s : State) (n : RegNo) (d : Nat), s.status ≠ .busy → n = 2 ∨ n = 3 ∨ n = 4 → d < 2 ^ s.params.regW →
    ∃ t u v, exec (.regWrite n d) s = .next t ∧ exec (.regRead n) t = .next u ∧ u.ports = s.ports ++ [.regData n v] ∧
      (n = 2 → v = d % 2 ^ s.params.cntW) ∧ (n = 3 → v = d % 2 ^ s.params.widxW) ∧
      (n = 4 → v = d % 2 ^ s.params.linkW)

/-- R5, R58, R60: a register access at the head of the agenda (the model's schedule, notes/assumptions/2.md) is decoded
and its operation is the step. -/
def Obligations.AccessStepRunsDecodedOperation : Prop :=
  ∀ (s : State) (a : RegAccess) (rest : List Move) (i : Instr), s.agenda = .access a :: rest →
    decodeAccess s.params a = .ok i →
    ∃ f, step s = exec i f ∧ f.agenda = rest ∧ f.ports = [] ∧ ChangesOnly [.agenda, .ports] s f

/-- R42, R100, R33: what the platform writes reads back, at any time, a running decode included (70_reset_and_hazards.md
R134: the block goes on), and no other element of any space changes. That the platform may write `OUT` at all, and during a
decode, is the model's choice (notes/assumptions/19.md). -/
def Obligations.PlatformWriteReadsBack : Prop :=
  ∀ (s : State) (rest : List Move) (a : Nat),
    (∀ w, s.agenda = .placeStream a w :: rest → a < 2 ^ s.params.widxW →
        ∃ t, step s = .next t ∧ streamWord t a = w ∧ (∀ b, b ≠ a → streamWord t b = streamWord s b) ∧
          ChangesOnly [.stream, .stale, .agenda, .ports] s t) ∧
    (∀ e, s.agenda = .placeLink a e :: rest → a < 2 ^ s.params.nodeW → entryFits s.params e = true →
        ∃ t, step s = .next t ∧ entryAt t a = e ∧ (∀ b, b ≠ a → entryAt t b = entryAt s b) ∧
          ChangesOnly [.link, .agenda, .ports] s t) ∧
    (∀ v, s.agenda = .placeOut a v :: rest → a < 2 ^ s.params.cntW → v < 2 ^ s.params.outW →
        ∃ t, step s = .next t ∧ outAt t a = v ∧ OutChangesOnlyAt a s t ∧ ChangesOnly [.out, .agenda, .ports] s t)

/-- R43, and R134 when it is broken: the engine keeps no copy of an entry; a table entry that the platform rewrites during
a decode is the one that the engine, moving next, fetches and runs. -/
def Obligations.RewrittenEntryRunsNext : Prop :=
  ∀ (s : State) (e : Int) (rest : List Move), s.agenda = .placeLink s.node.toNat e :: rest →
    entryFits s.params e = true → s.status = .busy → s.prod.toNat < s.xsz.toNat → s.node.toNat < s.ltlen.toNat →
    ∃ t, step s = .next t ∧ t.agenda = rest ∧
      (nextMove t = .engine →
        ∃ f, exec .fetch (beginStep t) = .next f ∧
          f.ports = [.linkRead s.node.toNat (BitVec.ofInt s.params.linkW e).toNat] ∧
          step t = exec (decodeEntry (BitVec.ofInt s.params.linkW e)) f)

/-- R134, R27, U8: what a buffer may hold beside the content in memory grows only by a platform write to the current word
of a running decode, by the content that the word had before; every other step keeps it or empties it
(notes/assumptions/6.md). -/
def Obligations.StaleWordOnlyByLiveWrite : Prop :=
  ∀ s t : State, step s = .next t →
    t.stale = s.stale ∨ t.stale = [] ∨
    (∃ w, nextMove s = .placeStream s.wordi.toNat w ∧ s.status = .busy ∧ s.wordi.toNat < s.hxsz.toNat ∧
      t.stale = s.stale ++ [streamWord s s.wordi.toNat])

/-- 20_memory.md R42 and U8: in the word that the cursor comes to nothing is stale, nor is it after `START`
(notes/assumptions/6.md). -/
def Obligations.NewWordIsNeverStale : Prop :=
  ∀ s t : State, step s = .next t → t.status = .busy → t.wordi.toNat ≠ s.wordi.toNat ∨ s.status ≠ .busy → t.stale = []

/-- R134 and U8, "up to sixteen bits": in a run of any moves, from a state on and for as long as each state has something
stale, the engine reads at most as many bits as the current word has left, `BITI + 1`, which is at most sixteen. `draws`
counts the stream reads (notes/assumptions/6.md). -/
def Obligations.StaleWordLastsSixteenBits : Prop :=
  ∀ (s t : State) (k : Nat), after k s = .next t → (∀ i u, i < k → after i s = .next u → u.stale ≠ []) →
    t.draws ≤ s.draws + (s.biti.toNat + 1) ∧ s.biti.toNat + 1 ≤ 16

/-! ### Faults and reset (60_exceptions.md, 70_reset_and_hazards.md) -/

/-- R116: a step that enters `FAULT` is the engine's; it writes `CAUSE` and `STATE`, and every register and every element
of the memories stays; the engine then has no further step. -/
def Obligations.FaultEntryFreezesState : Prop :=
  ∀ s t : State, step s = .next t → s.status ≠ .fault → t.status = .fault →
    nextMove s = .engine ∧ s.status = .busy ∧
    (s.node.toNat < s.ltlen.toNat → t.cause = .outOfBits) ∧ (s.ltlen.toNat ≤ s.node.toNat → t.cause = .malformedTree) ∧
    ChangesOnly [.status, .cause, .agenda, .ports] s t ∧
    (nextMove t = .engine → ∃ u, step t = .next u ∧ ChangesOnly [.agenda, .ports] t u)

/-- R117: only `START` or reset changes `STATE` and `CAUSE` after a fault. -/
def Obligations.OnlyStartOrResetLeavesFault : Prop :=
  ∀ s t : State, step s = .next t → s.status = .fault →
    (t.status = .fault ∧ t.cause = s.cause) ∨
    (nextMove s = .reset ∧ t.status = .idle ∧ t.cause = .none) ∨
    (∃ d, nextMove s = .access (.write 0 d) ∧ d % 2 = 1 ∧ t.status = .busy ∧ t.cause = .none)

/-- R111, with the model's invariant: `OutOfBits` is raised by a `LINK` operation, exactly when `WORDI >= HXSZ`, and the
registers are then what the rule says; no other operation raises it. -/
def Obligations.OutOfBitsOnlyFromLink : Prop :=
  ∀ (s t : State) (i : Instr), Inv s → s.status = .busy → exec i s = .next t →
    (t.cause = .outOfBits ↔ (∃ m, i = .link m) ∧ s.hxsz.toNat ≤ s.wordi.toNat) ∧
    (t.cause = .outOfBits → t.wordi.toNat = t.hxsz.toNat ∧ t.biti.toNat = 15 ∧ ChangesOnly [.status, .cause] s t)

/-- R112: `MalformedTree` is raised by `FETCH` when `NODE >= LTLEN`, before any access, with the registers as they were;
and by nothing else but the other reads of the table, `TRAIL` alone and inside `FINISH`, on the same condition. -/
def Obligations.MalformedTreeOnlyFromTableRead : Prop :=
  ∀ s : State,
    (s.ltlen.toNat ≤ s.node.toNat →
      ∃ t, exec .fetch s = .next t ∧ t.status = .fault ∧ t.cause = .malformedTree ∧
        ChangesOnly [.status, .cause] s t) ∧
    ∀ (t : State) (i : Instr), exec i s = .next t → s.cause ≠ .malformedTree → t.cause = .malformedTree →
      (i = .fetch ∨ i = .trail ∨ i = .finish) ∧ s.ltlen.toNat ≤ s.node.toNat ∧ t.status = .fault ∧
        ChangesOnly [.status, .cause] s t

/-- R99: a running decode ends only by `FINISH`, by a fault, or by the reset event. -/
def Obligations.DecodeEndsOnlyByFinishFaultOrReset : Prop :=
  ∀ s t : State, step s = .next t → s.status = .busy → t.status ≠ .busy →
    (nextMove s = .engine ∧ s.xsz.toNat ≤ s.prod.toNat ∧ exec .finish (beginStep s) = .next t ∧ t.status = .done) ∨
    (nextMove s = .engine ∧ s.prod.toNat < s.xsz.toNat ∧ t.status = .fault) ∨
    (nextMove s = .reset ∧ t.status = .idle)

/-- R29 items 1, 3, 6 and 7 in the state in which a decode ends, in whatever way, reset included, with the model's
invariant before. -/
def Obligations.DecodeEndsWithConsistentRegisters : Prop :=
  ∀ s t : State, Inv s → s.status = .busy → step s = .next t → t.status ≠ .busy →
    t.wordi.toNat ≤ t.hxsz.toNat ∧ t.prod.toNat ≤ t.xsz.toNat ∧
    (t.wordi.toNat = t.hxsz.toNat → t.biti.toNat = 15) ∧
    (t.status = .done → t.prod.toNat = t.xsz.toNat ∧ t.node.toNat = 0 ∧ t.cause = .none) ∧
    (t.cause = .outOfBits → t.wordi.toNat = t.hxsz.toNat) ∧
    (t.cause = .malformedTree → t.ltlen.toNat ≤ t.node.toNat)

/-- R130, R131: the reset event, in every state, a running decode included; the engine then has no step of its own. That
a reset falls between two steps is the model's reading (notes/assumptions/2.md, DEDUCED), and that it empties a private
buffer, so that nothing is stale, the model's choice (notes/assumptions/6.md). -/
def Obligations.ResetEventRestoresRegisters : Prop :=
  ∀ (s : State) (rest : List Move), s.agenda = .reset :: rest →
    ∃ t, step s = .next t ∧ t.status = .idle ∧ t.cause = .none ∧ t.node.toNat = 0 ∧ t.biti.toNat = 15 ∧
      t.wordi.toNat = 0 ∧ t.prod.toNat = 0 ∧ t.xsz.toNat = 0 ∧ t.hxsz.toNat = 0 ∧ t.ltlen.toNat = 0 ∧
      donePin t = false ∧ faultPin t = false ∧ busyPin t = false ∧ t.agenda = rest ∧ Same s t .params ∧
      Same s t .stream ∧ Same s t .link ∧ Same s t .out ∧ t.stale = [] ∧
      (nextMove t = .engine → ∃ u, step t = .next u ∧ ChangesOnly [.agenda, .ports] t u)

/-- R28: the register values right after reset. -/
def Obligations.ResetRegisterValues : Prop :=
  State.reset.status = .idle ∧ State.reset.cause = .none ∧ State.reset.node.toNat = 0 ∧
  State.reset.biti.toNat = 15 ∧ State.reset.wordi.toNat = 0 ∧ State.reset.prod.toNat = 0 ∧
  State.reset.xsz.toNat = 0 ∧ State.reset.hxsz.toNat = 0 ∧ State.reset.ltlen.toNat = 0

/-- R114: of the three pins exactly one is high, except in `IDLE`, where none is. -/
def Obligations.PinsShowState : Prop :=
  ∀ s : State,
    ((s.status = .idle ∧ busyPin s = false ∧ donePin s = false ∧ faultPin s = false) ∨
     (s.status = .busy ∧ busyPin s = true ∧ donePin s = false ∧ faultPin s = false) ∨
     (s.status = .done ∧ busyPin s = false ∧ donePin s = true ∧ faultPin s = false) ∨
     (s.status = .fault ∧ busyPin s = false ∧ donePin s = false ∧ faultPin s = true))

/-! ### Rules about the whole machine -/

/-- Every operation completes, in every state. Where the dispatch would not select it (`LEAF` and `LINK` without `BUSY` and
`PROD < XSZ`, `TRAIL` without `PROD = XSZ - 1`) and on operands out of their range this is the model's choice
(notes/assumptions/9.md, 7.md). -/
def Obligations.EveryOperationCompletes : Prop :=
  ∀ (i : Instr) (s : State), ∃ t, exec i s = .next t

/-- R87: the control transfers are exactly `LINK` (to `m` or `m - 1`), `LEAF` and `START` (to node 0): no other operation
changes `NODE`. -/
def Obligations.ControlTransfersAreExact : Prop :=
  ∀ (i : Instr) (s t : State), i.wf s.params = true → exec i s = .next t →
    Same s t .node ∨
    (∃ m, i = .link m ∧ (t.node.toNat = m ∨ t.node.toNat + 1 = m)) ∨
    ((i = .leafZero ∨ (∃ v, i = .leafNeg v) ∨ i = .start) ∧ t.node.toNat = 0)

/-- A step stops only on what cannot be offered to the hardware (notes/assumptions/7.md). -/
def Obligations.StopsOnlyOnMisuse : Prop :=
  ∀ s : State, (∃ t, step s = .next t) ∨
    (∃ n d, nextMove s = .access (.write n d) ∧ 2 ^ s.params.regW ≤ d ∧ step s = .refused (.valueDoesNotFit none)) ∨
    (∃ a w, nextMove s = .placeStream a w ∧ 2 ^ s.params.widxW ≤ a ∧ step s = .fault (.noSuchElement .stream)) ∨
    (∃ a e, nextMove s = .placeLink a e ∧
      (2 ^ s.params.nodeW ≤ a ∧ step s = .fault (.noSuchElement .link) ∨
       entryFits s.params e = false ∧ step s = .refused (.valueDoesNotFit (some .link)))) ∨
    (∃ a v, nextMove s = .placeOut a v ∧
      (2 ^ s.params.cntW ≤ a ∧ step s = .fault (.noSuchElement .out) ∨
       2 ^ s.params.outW ≤ v ∧ step s = .refused (.valueDoesNotFit (some .out))))

/-- R95, R10: the operand registers never change while a decode runs, but by the reset event; and the parameters never
change at all. -/
def Obligations.OperandsStableWhileBusy : Prop :=
  ∀ s t : State, step s = .next t →
    t.params = s.params ∧
    (s.status = .busy → nextMove s ≠ .reset → Same s t .xsz ∧ Same s t .hxsz ∧ Same s t .ltlen)

/-- R31, R32, R10: no step but the platform's own write changes an element of `STREAM` or of `LINK`, and no step but the
engine's and the platform's changes one of `OUT` (a write of the platform to it is the model's choice,
notes/assumptions/19.md). -/
def Obligations.InputsOnlyChangedByPlatform : Prop :=
  ∀ s t : State, step s = .next t →
    ((∀ a w, nextMove s ≠ .placeStream a w) → Same s t .stream) ∧
    ((∀ a e, nextMove s ≠ .placeLink a e) → Same s t .link) ∧
    ((∀ a v, nextMove s ≠ .placeOut a v) → nextMove s ≠ .engine → Same s t .out)

/-- R29 item 5, one step of it: an engine step either leaves `PROD` and every output element, or adds 1 to `PROD` and
changes no element but the one at the old `PROD`, which is below `XSZ` (R33). -/
def Obligations.OutputGrowsInOrder : Prop :=
  ∀ s t : State, nextMove s = .engine → s.status = .busy → step s = .next t →
    (Same s t .prod ∧ Same s t .out) ∨
    (s.prod.toNat < s.xsz.toNat ∧ t.prod.toNat = s.prod.toNat + 1 ∧ OutChangesOnlyAt s.prod.toNat s t)

/-- R37, R40, R41, R88: the accesses of an engine step, in their order, with addresses inside the usable extents and the
data that the memories hold (for the stream, or held before a write that breaks R134, notes/assumptions/6.md). -/
def Obligations.EngineAccessesStayInExtents : Prop :=
  ∀ s t : State, nextMove s = .engine → s.status = .busy → step s = .next t →
    t.ports = [] ∨
    (s.node.toNat < s.ltlen.toNat ∧
      (t.ports = [.linkRead s.node.toNat (linkEntry s s.node.toNat).toNat] ∨
       (s.wordi.toNat < s.hxsz.toNat ∧ ∃ w, (w = streamWord s s.wordi.toNat ∨ w ∈ s.stale) ∧
        t.ports = [.linkRead s.node.toNat (linkEntry s s.node.toNat).toNat, .streamRead s.wordi.toNat w.toNat]) ∨
       (s.prod.toNat < s.xsz.toNat ∧
        t.ports = [.linkRead s.node.toNat (linkEntry s s.node.toNat).toNat,
          .outWrite s.prod.toNat (outAt t s.prod.toNat)])))

/-- The invariant (R17, R29, the form of the memories) holds after reset, in every configuration. -/
def Obligations.ResetMeetsInvariant : Prop := ∀ p : Params, Inv (State.resetWith p)

/-- Every step keeps the invariant, from every state that meets it: R17, R29 items 1, 2, 3, 6, 7, and the canonical form of
the memories. -/
def Obligations.StepKeepsInvariant : Prop := ∀ s t : State, Inv s → step s = .next t → Inv t

/-! ### Whole decodes

The first two statements hold under every order of the agents. The others are about runs of the engine alone, from `START`
(or a symbol's start) on: no other move is to come (`agenda = []`). -/

/-- R71, one step of it, whatever the agents' order: while a decode runs, an engine step lowers the number of engine steps
left, and no other move raises it; `START` sets it to `16 * HXSZ + XSZ + 1`, and while a step is left the engine has one. -/
def Obligations.StepsLeftFall : Prop :=
  (∀ s t : State, step s = .next t → s.status = .busy →
    (nextMove s = .engine → stepsLeft t < stepsLeft s) ∧ stepsLeft t ≤ stepsLeft s) ∧
  ∀ s : State, (s.status ≠ .busy → stepsLeft (startDecode s) = 16 * s.hxsz.toNat + s.xsz.toNat + 1) ∧
    (0 < stepsLeft s ↔ s.status = .busy)

/-- R71, whatever the host, the platform and the reset pin do in between (the model's agenda, notes/assumptions/2.md): from
`START`, and for as long as the decode runs, the engine moves at most `16 * HXSZ + XSZ + 1` times, and after that many
moves it has no step. -/
def Obligations.DecodeTakesBoundedEngineSteps : Prop :=
  ∀ (s t : State) (k : Nat), s.status ≠ .busy → after k (startDecode s) = .next t →
    (∀ i u, i < k → after i (startDecode s) = .next u → u.status = .busy) →
    engineMoves k s.agenda ≤ 16 * s.hxsz.toNat + s.xsz.toNat + 1 ∧
    (engineMoves k s.agenda = 16 * s.hxsz.toNat + s.xsz.toNat + 1 → t.status ≠ .busy)

/-- R71 for the engine alone: from `START`, with no other move to come, the engine has ended the decode after at most `16 * HXSZ + XSZ + 1`
steps, in `DONE` or in `FAULT`. -/
def Obligations.DecodeEndsWithinBound : Prop :=
  ∀ s : State, s.agenda = [] → s.status ≠ .busy →
    ∃ k t, k ≤ 16 * s.hxsz.toNat + s.xsz.toNat + 1 ∧ after k (startDecode s) = .next t ∧
      (t.status = .done ∨ t.status = .fault)

/-- R57 (a): with a leaf at the root every symbol has the empty codeword: the decode emits `XSZ` copies of `-LINK[0]`,
consumes no bit, for any stream, the empty one included, and takes `XSZ + 1` steps. -/
def Obligations.RootLeafDecodesToCopies : Prop :=
  ∀ s : State, s.agenda = [] → s.status ≠ .busy → 0 < s.ltlen.toNat → entryAt s 0 ≤ 0 →
    ∃ t, after (s.xsz.toNat + 1) (startDecode s) = .next t ∧ Succeeded t ∧ t.prod.toNat = s.xsz.toNat ∧
      bitsConsumed t = 0 ∧ (∀ a, a < s.xsz.toNat → (outAt t a : Int) = -entryAt s 0) ∧
      ∀ a, s.xsz.toNat ≤ a → outAt t a = outAt s a

/-- R61, R112: with a well-formed table no step of a decode ever raises `MalformedTree`. -/
def Obligations.WellFormedTableNeverMalformed : Prop :=
  ∀ (s t : State) (k : Nat), s.agenda = [] → s.status ≠ .busy → WellFormedTree s 0 →
    after k (startDecode s) = .next t → t.cause ≠ .malformedTree

/-- R56: at the start of a symbol, the engine takes one step a bit and one for the leaf, and emits exactly the symbol
whose codeword lies at the cursor, while R134 is kept for the current word. -/
def Obligations.CodewordEmitsItsSymbol : Prop :=
  ∀ (s : State) (v : Int) (k' : Nat), s.agenda = [] → s.status = .busy → s.prod.toNat < s.xsz.toNat →
    s.node.toNat = 0 → s.stale = [] → Codeword s 0 (bitsConsumed s) v k' →
    ∃ t, after (k' - bitsConsumed s + 1) s = .next t ∧ t.status = .busy ∧ t.node.toNat = 0 ∧
      bitsConsumed t = k' ∧ t.prod.toNat = s.prod.toNat + 1 ∧ (outAt t s.prod.toNat : Int) = v ∧
      OutChangesOnlyAt s.prod.toNat s t ∧ ChangesOnly [.biti, .wordi, .prod, .out, .draws, .ports] s t

/-- The contract of R66 as a refinement: when the stream begins with the codewords of `XSZ` symbols, the decode from
`START` ends in `DONE` with exactly these symbols in `OUT[0..XSZ-1]`, and no other element changed. -/
def Obligations.MessageIsDecoded : Prop :=
  ∀ (s : State) (vs : List Int) (k' : Nat), s.agenda = [] → s.status ≠ .busy → vs.length = s.xsz.toNat →
    Message s 0 vs k' →
    ∃ t, after (k' + s.xsz.toNat + 1) (startDecode s) = .next t ∧ Succeeded t ∧ t.prod.toNat = s.xsz.toNat ∧
      bitsConsumed t = k' ∧ (∀ (a : Nat) (h : a < vs.length), (outAt t a : Int) = vs[a]) ∧
      ∀ a, s.xsz.toNat ≤ a → outAt t a = outAt s a

/-- The other direction: a decode that ends in `DONE` has found the codewords of exactly `XSZ` symbols from bit 0 on, and
`OUT[0..XSZ-1]` hold them in order (R66 contract, R117: `DONE` is the premise of a claim about the output). -/
def Obligations.DoneMeansMessageDecoded : Prop :=
  ∀ (s t : State) (k : Nat), s.agenda = [] → s.status ≠ .busy → after k (startDecode s) = .next t → Succeeded t →
    ∃ vs : List Int, vs.length = s.xsz.toNat ∧ Message s 0 vs (bitsConsumed t) ∧ t.prod.toNat = s.xsz.toNat ∧
      ∀ (a : Nat) (h : a < vs.length), (outAt t a : Int) = vs[a]

/-- R73 determinism, R57 (b): a decode is a function of its operands, of `STREAM[0..HXSZ-1]` and of `LINK[0..LTLEN-1]`:
what the registers, the other elements and `OUT` held before makes no difference to its outcome, its registers, its port
accesses or the symbols it writes. -/
def Obligations.DecodeDependsOnInputsOnly : Prop :=
  ∀ (s s' t t' : State) (k : Nat), s.agenda = [] → s'.agenda = [] → s.status ≠ .busy → s'.status ≠ .busy →
    SameInputs s s' → 0 < k → after k (startDecode s) = .next t → after k (startDecode s') = .next t' →
    t'.status = t.status ∧ t'.cause = t.cause ∧ t'.node.toNat = t.node.toNat ∧ t'.biti = t.biti ∧
      t'.wordi.toNat = t.wordi.toNat ∧ t'.prod.toNat = t.prod.toNat ∧ t'.ports = t.ports ∧
      ∀ a, a < t.prod.toNat → outAt t' a = outAt t a
end

