-- ==== Sys2Proof/Laws/State.lean ====
section
/-! SUPPORT. One lemma per field per state update, true by computation: what each shared operation leaves in each part.
The registers whose width is a parameter are read as integers, so that both sides have one type;
and the lemmas for `params` have a proof in parentheses, so that `simp` never rewrites the width inside such a type. -/

namespace Sys2Proof.Machine

/-! ### `onPort` -/

@[simp] theorem onPort_params (s : State) (ev : PortEvent) : (onPort s ev).params = s.params := (rfl)
@[simp] theorem onPort_biti (s : State) (ev : PortEvent) : (onPort s ev).biti = s.biti := rfl
@[simp] theorem onPort_status (s : State) (ev : PortEvent) : (onPort s ev).status = s.status := rfl
@[simp] theorem onPort_cause (s : State) (ev : PortEvent) : (onPort s ev).cause = s.cause := rfl
@[simp] theorem onPort_stale (s : State) (ev : PortEvent) : (onPort s ev).stale = s.stale := rfl
@[simp] theorem onPort_draws (s : State) (ev : PortEvent) : (onPort s ev).draws = s.draws := rfl
@[simp] theorem onPort_agenda (s : State) (ev : PortEvent) : (onPort s ev).agenda = s.agenda := rfl
@[simp] theorem onPort_ports (s : State) (ev : PortEvent) : (onPort s ev).ports = s.ports ++ [ev] := rfl
@[simp] theorem onPort_node (s : State) (ev : PortEvent) : (onPort s ev).node.toNat = s.node.toNat := rfl
@[simp] theorem onPort_wordi (s : State) (ev : PortEvent) : (onPort s ev).wordi.toNat = s.wordi.toNat := rfl
@[simp] theorem onPort_prod (s : State) (ev : PortEvent) : (onPort s ev).prod.toNat = s.prod.toNat := rfl
@[simp] theorem onPort_xsz (s : State) (ev : PortEvent) : (onPort s ev).xsz.toNat = s.xsz.toNat := rfl
@[simp] theorem onPort_hxsz (s : State) (ev : PortEvent) : (onPort s ev).hxsz.toNat = s.hxsz.toNat := rfl
@[simp] theorem onPort_ltlen (s : State) (ev : PortEvent) : (onPort s ev).ltlen.toNat = s.ltlen.toNat := rfl
@[simp] theorem onPort_stream (s : State) (ev : PortEvent) : (onPort s ev).stream = s.stream := rfl
@[simp] theorem onPort_streamWord (s : State) (ev : PortEvent) (a : Nat) : streamWord (onPort s ev) a = streamWord s a := rfl
@[simp] theorem onPort_link_wf (s : State) (ev : PortEvent) (n : Nat) : Memory.wf n (onPort s ev).link = Memory.wf n s.link := rfl
@[simp] theorem onPort_linkEntry (s : State) (ev : PortEvent) (a : Nat) : (linkEntry (onPort s ev) a).toNat = (linkEntry s a).toNat := rfl
@[simp] theorem onPort_entryAt (s : State) (ev : PortEvent) (a : Nat) : entryAt (onPort s ev) a = entryAt s a := rfl
@[simp] theorem onPort_out_wf (s : State) (ev : PortEvent) (n : Nat) : Memory.wf n (onPort s ev).out = Memory.wf n s.out := rfl
@[simp] theorem onPort_outAt (s : State) (ev : PortEvent) (a : Nat) : outAt (onPort s ev) a = outAt s a := rfl

/-! ### `storeSymbol` -/

@[simp] theorem storeSymbol_params (s : State) (v : BitVec s.params.outW) : (storeSymbol s v).params = s.params := (rfl)
@[simp] theorem storeSymbol_biti (s : State) (v : BitVec s.params.outW) : (storeSymbol s v).biti = s.biti := rfl
@[simp] theorem storeSymbol_status (s : State) (v : BitVec s.params.outW) : (storeSymbol s v).status = s.status := rfl
@[simp] theorem storeSymbol_cause (s : State) (v : BitVec s.params.outW) : (storeSymbol s v).cause = s.cause := rfl
@[simp] theorem storeSymbol_stale (s : State) (v : BitVec s.params.outW) : (storeSymbol s v).stale = s.stale := rfl
@[simp] theorem storeSymbol_draws (s : State) (v : BitVec s.params.outW) : (storeSymbol s v).draws = s.draws := rfl
@[simp] theorem storeSymbol_agenda (s : State) (v : BitVec s.params.outW) : (storeSymbol s v).agenda = s.agenda := rfl
@[simp] theorem storeSymbol_ports (s : State) (v : BitVec s.params.outW) : (storeSymbol s v).ports = s.ports ++ [.outWrite s.prod.toNat v.toNat] := rfl
@[simp] theorem storeSymbol_node (s : State) (v : BitVec s.params.outW) : (storeSymbol s v).node.toNat = s.node.toNat := rfl
@[simp] theorem storeSymbol_wordi (s : State) (v : BitVec s.params.outW) : (storeSymbol s v).wordi.toNat = s.wordi.toNat := rfl
@[simp] theorem storeSymbol_xsz (s : State) (v : BitVec s.params.outW) : (storeSymbol s v).xsz.toNat = s.xsz.toNat := rfl
@[simp] theorem storeSymbol_hxsz (s : State) (v : BitVec s.params.outW) : (storeSymbol s v).hxsz.toNat = s.hxsz.toNat := rfl
@[simp] theorem storeSymbol_ltlen (s : State) (v : BitVec s.params.outW) : (storeSymbol s v).ltlen.toNat = s.ltlen.toNat := rfl
@[simp] theorem storeSymbol_stream (s : State) (v : BitVec s.params.outW) : (storeSymbol s v).stream = s.stream := rfl
@[simp] theorem storeSymbol_streamWord (s : State) (v : BitVec s.params.outW) (a : Nat) : streamWord (storeSymbol s v) a = streamWord s a := rfl
@[simp] theorem storeSymbol_link_wf (s : State) (v : BitVec s.params.outW) (n : Nat) : Memory.wf n (storeSymbol s v).link = Memory.wf n s.link := rfl
@[simp] theorem storeSymbol_linkEntry (s : State) (v : BitVec s.params.outW) (a : Nat) : (linkEntry (storeSymbol s v) a).toNat = (linkEntry s a).toNat := rfl
@[simp] theorem storeSymbol_entryAt (s : State) (v : BitVec s.params.outW) (a : Nat) : entryAt (storeSymbol s v) a = entryAt s a := rfl

/-! ### `onLinkPort` -/

@[simp] theorem onLinkPort_params (s : State) (e : BitVec s.params.linkW) : (onLinkPort s e).params = s.params := (rfl)
@[simp] theorem onLinkPort_biti (s : State) (e : BitVec s.params.linkW) : (onLinkPort s e).biti = s.biti := rfl
@[simp] theorem onLinkPort_status (s : State) (e : BitVec s.params.linkW) : (onLinkPort s e).status = s.status := rfl
@[simp] theorem onLinkPort_cause (s : State) (e : BitVec s.params.linkW) : (onLinkPort s e).cause = s.cause := rfl
@[simp] theorem onLinkPort_stale (s : State) (e : BitVec s.params.linkW) : (onLinkPort s e).stale = s.stale := rfl
@[simp] theorem onLinkPort_draws (s : State) (e : BitVec s.params.linkW) : (onLinkPort s e).draws = s.draws := rfl
@[simp] theorem onLinkPort_agenda (s : State) (e : BitVec s.params.linkW) : (onLinkPort s e).agenda = s.agenda := rfl
@[simp] theorem onLinkPort_ports (s : State) (e : BitVec s.params.linkW) : (onLinkPort s e).ports = s.ports ++ [.linkRead s.node.toNat e.toNat] := rfl
@[simp] theorem onLinkPort_node (s : State) (e : BitVec s.params.linkW) : (onLinkPort s e).node.toNat = s.node.toNat := rfl
@[simp] theorem onLinkPort_wordi (s : State) (e : BitVec s.params.linkW) : (onLinkPort s e).wordi.toNat = s.wordi.toNat := rfl
@[simp] theorem onLinkPort_prod (s : State) (e : BitVec s.params.linkW) : (onLinkPort s e).prod.toNat = s.prod.toNat := rfl
@[simp] theorem onLinkPort_xsz (s : State) (e : BitVec s.params.linkW) : (onLinkPort s e).xsz.toNat = s.xsz.toNat := rfl
@[simp] theorem onLinkPort_hxsz (s : State) (e : BitVec s.params.linkW) : (onLinkPort s e).hxsz.toNat = s.hxsz.toNat := rfl
@[simp] theorem onLinkPort_ltlen (s : State) (e : BitVec s.params.linkW) : (onLinkPort s e).ltlen.toNat = s.ltlen.toNat := rfl
@[simp] theorem onLinkPort_stream (s : State) (e : BitVec s.params.linkW) : (onLinkPort s e).stream = s.stream := rfl
@[simp] theorem onLinkPort_streamWord (s : State) (e : BitVec s.params.linkW) (a : Nat) : streamWord (onLinkPort s e) a = streamWord s a := rfl
@[simp] theorem onLinkPort_link_wf (s : State) (e : BitVec s.params.linkW) (n : Nat) : Memory.wf n (onLinkPort s e).link = Memory.wf n s.link := rfl
@[simp] theorem onLinkPort_linkEntry (s : State) (e : BitVec s.params.linkW) (a : Nat) : (linkEntry (onLinkPort s e) a).toNat = (linkEntry s a).toNat := rfl
@[simp] theorem onLinkPort_entryAt (s : State) (e : BitVec s.params.linkW) (a : Nat) : entryAt (onLinkPort s e) a = entryAt s a := rfl
@[simp] theorem onLinkPort_out_wf (s : State) (e : BitVec s.params.linkW) (n : Nat) : Memory.wf n (onLinkPort s e).out = Memory.wf n s.out := rfl
@[simp] theorem onLinkPort_outAt (s : State) (e : BitVec s.params.linkW) (a : Nat) : outAt (onLinkPort s e) a = outAt s a := rfl

/-! ### `raise` -/

@[simp] theorem raise_params (x : Exc) (s : State) : (raise x s).params = s.params := (rfl)
@[simp] theorem raise_biti (x : Exc) (s : State) : (raise x s).biti = s.biti := rfl
@[simp] theorem raise_status (x : Exc) (s : State) : (raise x s).status = .fault := rfl
@[simp] theorem raise_cause (x : Exc) (s : State) : (raise x s).cause = excCause x := rfl
@[simp] theorem raise_stale (x : Exc) (s : State) : (raise x s).stale = s.stale := rfl
@[simp] theorem raise_draws (x : Exc) (s : State) : (raise x s).draws = s.draws := rfl
@[simp] theorem raise_agenda (x : Exc) (s : State) : (raise x s).agenda = s.agenda := rfl
@[simp] theorem raise_ports (x : Exc) (s : State) : (raise x s).ports = s.ports := rfl
@[simp] theorem raise_node (x : Exc) (s : State) : (raise x s).node.toNat = s.node.toNat := rfl
@[simp] theorem raise_wordi (x : Exc) (s : State) : (raise x s).wordi.toNat = s.wordi.toNat := rfl
@[simp] theorem raise_prod (x : Exc) (s : State) : (raise x s).prod.toNat = s.prod.toNat := rfl
@[simp] theorem raise_xsz (x : Exc) (s : State) : (raise x s).xsz.toNat = s.xsz.toNat := rfl
@[simp] theorem raise_hxsz (x : Exc) (s : State) : (raise x s).hxsz.toNat = s.hxsz.toNat := rfl
@[simp] theorem raise_ltlen (x : Exc) (s : State) : (raise x s).ltlen.toNat = s.ltlen.toNat := rfl
@[simp] theorem raise_stream (x : Exc) (s : State) : (raise x s).stream = s.stream := rfl
@[simp] theorem raise_streamWord (x : Exc) (s : State) (a : Nat) : streamWord (raise x s) a = streamWord s a := rfl
@[simp] theorem raise_link_wf (x : Exc) (s : State) (n : Nat) : Memory.wf n (raise x s).link = Memory.wf n s.link := rfl
@[simp] theorem raise_linkEntry (x : Exc) (s : State) (a : Nat) : (linkEntry (raise x s) a).toNat = (linkEntry s a).toNat := rfl
@[simp] theorem raise_entryAt (x : Exc) (s : State) (a : Nat) : entryAt (raise x s) a = entryAt s a := rfl
@[simp] theorem raise_out_wf (x : Exc) (s : State) (n : Nat) : Memory.wf n (raise x s).out = Memory.wf n s.out := rfl
@[simp] theorem raise_outAt (x : Exc) (s : State) (a : Nat) : outAt (raise x s) a = outAt s a := rfl

/-! ### `emitSymbol` -/

@[simp] theorem emitSymbol_params (s : State) (v : BitVec s.params.outW) : (emitSymbol s v).params = s.params := (rfl)
@[simp] theorem emitSymbol_biti (s : State) (v : BitVec s.params.outW) : (emitSymbol s v).biti = s.biti := rfl
@[simp] theorem emitSymbol_status (s : State) (v : BitVec s.params.outW) : (emitSymbol s v).status = s.status := rfl
@[simp] theorem emitSymbol_cause (s : State) (v : BitVec s.params.outW) : (emitSymbol s v).cause = s.cause := rfl
@[simp] theorem emitSymbol_stale (s : State) (v : BitVec s.params.outW) : (emitSymbol s v).stale = s.stale := rfl
@[simp] theorem emitSymbol_draws (s : State) (v : BitVec s.params.outW) : (emitSymbol s v).draws = s.draws := rfl
@[simp] theorem emitSymbol_agenda (s : State) (v : BitVec s.params.outW) : (emitSymbol s v).agenda = s.agenda := rfl
@[simp] theorem emitSymbol_ports (s : State) (v : BitVec s.params.outW) : (emitSymbol s v).ports = s.ports ++ [.outWrite s.prod.toNat v.toNat] := rfl
@[simp] theorem emitSymbol_wordi (s : State) (v : BitVec s.params.outW) : (emitSymbol s v).wordi.toNat = s.wordi.toNat := rfl
@[simp] theorem emitSymbol_xsz (s : State) (v : BitVec s.params.outW) : (emitSymbol s v).xsz.toNat = s.xsz.toNat := rfl
@[simp] theorem emitSymbol_hxsz (s : State) (v : BitVec s.params.outW) : (emitSymbol s v).hxsz.toNat = s.hxsz.toNat := rfl
@[simp] theorem emitSymbol_ltlen (s : State) (v : BitVec s.params.outW) : (emitSymbol s v).ltlen.toNat = s.ltlen.toNat := rfl
@[simp] theorem emitSymbol_stream (s : State) (v : BitVec s.params.outW) : (emitSymbol s v).stream = s.stream := rfl
@[simp] theorem emitSymbol_streamWord (s : State) (v : BitVec s.params.outW) (a : Nat) : streamWord (emitSymbol s v) a = streamWord s a := rfl
@[simp] theorem emitSymbol_link_wf (s : State) (v : BitVec s.params.outW) (n : Nat) : Memory.wf n (emitSymbol s v).link = Memory.wf n s.link := rfl
@[simp] theorem emitSymbol_linkEntry (s : State) (v : BitVec s.params.outW) (a : Nat) : (linkEntry (emitSymbol s v) a).toNat = (linkEntry s a).toNat := rfl
@[simp] theorem emitSymbol_entryAt (s : State) (v : BitVec s.params.outW) (a : Nat) : entryAt (emitSymbol s v) a = entryAt s a := rfl
@[simp] theorem emitSymbol_node (s : State) (v : BitVec s.params.outW) : (emitSymbol s v).node.toNat = 0 := rfl

/-! ### `advanceCursor` -/

@[simp] theorem advanceCursor_params (s : State) : (advanceCursor s).params = s.params := (rfl)
@[simp] theorem advanceCursor_biti (s : State) : (advanceCursor s).biti = if s.biti = 0 then 15 else s.biti - 1 := rfl
@[simp] theorem advanceCursor_status (s : State) : (advanceCursor s).status = s.status := rfl
@[simp] theorem advanceCursor_cause (s : State) : (advanceCursor s).cause = s.cause := rfl
@[simp] theorem advanceCursor_stale (s : State) : (advanceCursor s).stale = if s.biti = 0 then [] else s.stale := rfl
@[simp] theorem advanceCursor_draws (s : State) : (advanceCursor s).draws = s.draws := rfl
@[simp] theorem advanceCursor_agenda (s : State) : (advanceCursor s).agenda = s.agenda := rfl
@[simp] theorem advanceCursor_ports (s : State) : (advanceCursor s).ports = s.ports := rfl
@[simp] theorem advanceCursor_node (s : State) : (advanceCursor s).node.toNat = s.node.toNat := rfl
@[simp] theorem advanceCursor_prod (s : State) : (advanceCursor s).prod.toNat = s.prod.toNat := rfl
@[simp] theorem advanceCursor_xsz (s : State) : (advanceCursor s).xsz.toNat = s.xsz.toNat := rfl
@[simp] theorem advanceCursor_hxsz (s : State) : (advanceCursor s).hxsz.toNat = s.hxsz.toNat := rfl
@[simp] theorem advanceCursor_ltlen (s : State) : (advanceCursor s).ltlen.toNat = s.ltlen.toNat := rfl
@[simp] theorem advanceCursor_stream (s : State) : (advanceCursor s).stream = s.stream := rfl
@[simp] theorem advanceCursor_streamWord (s : State) (a : Nat) : streamWord (advanceCursor s) a = streamWord s a := rfl
@[simp] theorem advanceCursor_link_wf (s : State) (n : Nat) : Memory.wf n (advanceCursor s).link = Memory.wf n s.link := rfl
@[simp] theorem advanceCursor_linkEntry (s : State) (a : Nat) : (linkEntry (advanceCursor s) a).toNat = (linkEntry s a).toNat := rfl
@[simp] theorem advanceCursor_entryAt (s : State) (a : Nat) : entryAt (advanceCursor s) a = entryAt s a := rfl
@[simp] theorem advanceCursor_out_wf (s : State) (n : Nat) : Memory.wf n (advanceCursor s).out = Memory.wf n s.out := rfl
@[simp] theorem advanceCursor_outAt (s : State) (a : Nat) : outAt (advanceCursor s) a = outAt s a := rfl

/-! ### `followLink` -/

@[simp] theorem followLink_params (m : Nat) (s : State) : (followLink m s).params = s.params := (rfl)
@[simp] theorem followLink_biti (m : Nat) (s : State) : (followLink m s).biti = if s.biti = 0 then 15 else s.biti - 1 := rfl
@[simp] theorem followLink_status (m : Nat) (s : State) : (followLink m s).status = s.status := rfl
@[simp] theorem followLink_cause (m : Nat) (s : State) : (followLink m s).cause = s.cause := rfl
@[simp] theorem followLink_stale (m : Nat) (s : State) : (followLink m s).stale = if s.biti = 0 then [] else s.stale := rfl
@[simp] theorem followLink_draws (m : Nat) (s : State) : (followLink m s).draws = s.draws + 1 := rfl
@[simp] theorem followLink_agenda (m : Nat) (s : State) : (followLink m s).agenda = s.agenda := rfl
@[simp] theorem followLink_ports (m : Nat) (s : State) : (followLink m s).ports = s.ports ++ [.streamRead s.wordi.toNat (engineWord s).toNat] := rfl
@[simp] theorem followLink_prod (m : Nat) (s : State) : (followLink m s).prod.toNat = s.prod.toNat := rfl
@[simp] theorem followLink_xsz (m : Nat) (s : State) : (followLink m s).xsz.toNat = s.xsz.toNat := rfl
@[simp] theorem followLink_hxsz (m : Nat) (s : State) : (followLink m s).hxsz.toNat = s.hxsz.toNat := rfl
@[simp] theorem followLink_ltlen (m : Nat) (s : State) : (followLink m s).ltlen.toNat = s.ltlen.toNat := rfl
@[simp] theorem followLink_stream (m : Nat) (s : State) : (followLink m s).stream = s.stream := rfl
@[simp] theorem followLink_streamWord (m : Nat) (s : State) (a : Nat) : streamWord (followLink m s) a = streamWord s a := rfl
@[simp] theorem followLink_link_wf (m : Nat) (s : State) (n : Nat) : Memory.wf n (followLink m s).link = Memory.wf n s.link := rfl
@[simp] theorem followLink_linkEntry (m : Nat) (s : State) (a : Nat) : (linkEntry (followLink m s) a).toNat = (linkEntry s a).toNat := rfl
@[simp] theorem followLink_entryAt (m : Nat) (s : State) (a : Nat) : entryAt (followLink m s) a = entryAt s a := rfl
@[simp] theorem followLink_out_wf (m : Nat) (s : State) (n : Nat) : Memory.wf n (followLink m s).out = Memory.wf n s.out := rfl
@[simp] theorem followLink_outAt (m : Nat) (s : State) (a : Nat) : outAt (followLink m s) a = outAt s a := rfl

/-! ### `resetEvent` -/

@[simp] theorem resetEvent_params (s : State) : (resetEvent s).params = s.params := (rfl)
@[simp] theorem resetEvent_biti (s : State) : (resetEvent s).biti = 15 := rfl
@[simp] theorem resetEvent_status (s : State) : (resetEvent s).status = .idle := rfl
@[simp] theorem resetEvent_cause (s : State) : (resetEvent s).cause = .none := rfl
@[simp] theorem resetEvent_stale (s : State) : (resetEvent s).stale = [] := rfl
@[simp] theorem resetEvent_draws (s : State) : (resetEvent s).draws = s.draws := rfl
@[simp] theorem resetEvent_agenda (s : State) : (resetEvent s).agenda = s.agenda := rfl
@[simp] theorem resetEvent_ports (s : State) : (resetEvent s).ports = s.ports := rfl
@[simp] theorem resetEvent_stream (s : State) : (resetEvent s).stream = s.stream := rfl
@[simp] theorem resetEvent_streamWord (s : State) (a : Nat) : streamWord (resetEvent s) a = streamWord s a := rfl
@[simp] theorem resetEvent_link_wf (s : State) (n : Nat) : Memory.wf n (resetEvent s).link = Memory.wf n s.link := rfl
@[simp] theorem resetEvent_linkEntry (s : State) (a : Nat) : (linkEntry (resetEvent s) a).toNat = (linkEntry s a).toNat := rfl
@[simp] theorem resetEvent_entryAt (s : State) (a : Nat) : entryAt (resetEvent s) a = entryAt s a := rfl
@[simp] theorem resetEvent_out_wf (s : State) (n : Nat) : Memory.wf n (resetEvent s).out = Memory.wf n s.out := rfl
@[simp] theorem resetEvent_outAt (s : State) (a : Nat) : outAt (resetEvent s) a = outAt s a := rfl
@[simp] theorem resetEvent_node (s : State) : (resetEvent s).node.toNat = 0 := rfl
@[simp] theorem resetEvent_wordi (s : State) : (resetEvent s).wordi.toNat = 0 := rfl
@[simp] theorem resetEvent_prod (s : State) : (resetEvent s).prod.toNat = 0 := rfl
@[simp] theorem resetEvent_xsz (s : State) : (resetEvent s).xsz.toNat = 0 := rfl
@[simp] theorem resetEvent_hxsz (s : State) : (resetEvent s).hxsz.toNat = 0 := rfl
@[simp] theorem resetEvent_ltlen (s : State) : (resetEvent s).ltlen.toNat = 0 := rfl

/-! ### `beginStep` -/

@[simp] theorem beginStep_params (s : State) : (beginStep s).params = s.params := (rfl)
@[simp] theorem beginStep_biti (s : State) : (beginStep s).biti = s.biti := rfl
@[simp] theorem beginStep_status (s : State) : (beginStep s).status = s.status := rfl
@[simp] theorem beginStep_cause (s : State) : (beginStep s).cause = s.cause := rfl
@[simp] theorem beginStep_stale (s : State) : (beginStep s).stale = s.stale := rfl
@[simp] theorem beginStep_draws (s : State) : (beginStep s).draws = s.draws := rfl
@[simp] theorem beginStep_agenda (s : State) : (beginStep s).agenda = s.agenda.tail := rfl
@[simp] theorem beginStep_ports (s : State) : (beginStep s).ports = [] := rfl
@[simp] theorem beginStep_node (s : State) : (beginStep s).node.toNat = s.node.toNat := rfl
@[simp] theorem beginStep_wordi (s : State) : (beginStep s).wordi.toNat = s.wordi.toNat := rfl
@[simp] theorem beginStep_prod (s : State) : (beginStep s).prod.toNat = s.prod.toNat := rfl
@[simp] theorem beginStep_xsz (s : State) : (beginStep s).xsz.toNat = s.xsz.toNat := rfl
@[simp] theorem beginStep_hxsz (s : State) : (beginStep s).hxsz.toNat = s.hxsz.toNat := rfl
@[simp] theorem beginStep_ltlen (s : State) : (beginStep s).ltlen.toNat = s.ltlen.toNat := rfl
@[simp] theorem beginStep_stream (s : State) : (beginStep s).stream = s.stream := rfl
@[simp] theorem beginStep_streamWord (s : State) (a : Nat) : streamWord (beginStep s) a = streamWord s a := rfl
@[simp] theorem beginStep_link_wf (s : State) (n : Nat) : Memory.wf n (beginStep s).link = Memory.wf n s.link := rfl
@[simp] theorem beginStep_linkEntry (s : State) (a : Nat) : (linkEntry (beginStep s) a).toNat = (linkEntry s a).toNat := rfl
@[simp] theorem beginStep_entryAt (s : State) (a : Nat) : entryAt (beginStep s) a = entryAt s a := rfl
@[simp] theorem beginStep_out_wf (s : State) (n : Nat) : Memory.wf n (beginStep s).out = Memory.wf n s.out := rfl
@[simp] theorem beginStep_outAt (s : State) (a : Nat) : outAt (beginStep s) a = outAt s a := rfl

end Sys2Proof.Machine
end

