-- ==== Sys2Proof/Laws/Memory.lean ====
section
/-! SUPPORT. The laws of a memory space: read after write, and that a write keeps the canonical form. -/

namespace Sys2Proof.Machine

variable {w : Nat}

/-- What is found after a write; the form of the list plays no part. -/
theorem find_write (m : Memory w) (a b : Nat) (v : BitVec w) :
    (m.write a v).find b = if b = a then some v else m.find b := by
  induction m with
  | nil => simp [Memory.write, Memory.find]
  | cons c rest ih =>
    obtain ⟨k, x⟩ := c
    simp only [Memory.write]
    split_ifs <;> simp only [Memory.find] <;> (try rw [ih]) <;> split_ifs <;> first | rfl | omega

/-- Read after write, at the same place and elsewhere (20_memory.md R44). -/
theorem read_write (u : Nat → BitVec w) (m : Memory w) (a b : Nat) (v : BitVec w) :
    (m.write a v).read u b = if b = a then v else m.read u b := by
  simp only [Memory.read, find_write m a b v]
  split_ifs <;> rfl

theorem mem_write {m : Memory w} {a : Nat} {v : BitVec w} {c : Nat × BitVec w} (h : c ∈ m.write a v) :
    c = (a, v) ∨ c ∈ m := by
  induction m with
  | nil => simpa [Memory.write] using h
  | cons d rest ih =>
    simp only [Memory.write] at h
    split_ifs at h <;> simp only [List.mem_cons] at h ⊢ <;> tauto

theorem rising_write (m : Memory w) (a : Nat) (v : BitVec w) (h : m.rising = true) : (m.write a v).rising = true := by
  induction m with
  | nil => rfl
  | cons d rest ih =>
    obtain ⟨k, x⟩ := d
    simp only [Memory.rising, Bool.and_eq_true, List.all_eq_true, decide_eq_true_eq] at h
    simp only [Memory.write]
    split_ifs with h1 h2
    · simp only [Memory.rising, Bool.and_eq_true, List.all_eq_true, decide_eq_true_eq]
      refine ⟨fun c hc => ?_, h⟩
      rcases List.mem_cons.mp hc with rfl | hc
      · exact h1
      · exact h1.trans (h.1 c hc)
    · subst h2
      simpa only [Memory.rising, Bool.and_eq_true, List.all_eq_true, decide_eq_true_eq] using h
    · simp only [Memory.rising, Bool.and_eq_true, List.all_eq_true, decide_eq_true_eq]
      refine ⟨fun c hc => ?_, ih h.2⟩
      rcases mem_write hc with rfl | hc
      · show k < a
        omega
      · exact h.1 c hc

/-- A write keeps the canonical form. -/
theorem wf_write {n : Nat} {m : Memory w} {a : Nat} {v : BitVec w} (h : m.wf n = true) (ha : a < n) :
    (m.write a v).wf n = true := by
  simp only [Memory.wf, Bool.and_eq_true, List.all_eq_true, decide_eq_true_eq] at h ⊢
  refine ⟨rising_write m a v h.1, fun c hc => ?_⟩
  rcases mem_write hc with rfl | hc
  · exact ha
  · exact h.2 c hc

theorem rising_of_wf {n : Nat} {m : Memory w} (h : m.wf n = true) : m.rising = true := by
  simp only [Memory.wf, Bool.and_eq_true] at h
  exact h.1

theorem wf_nil (n : Nat) : Memory.wf n ([] : Memory w) = true := rfl

end Sys2Proof.Machine
end

