-- ==== Sys2Proof/Laws/Ops.lean ====
section
/-! SUPPORT. One lemma per shared operation: everything it can do, for proofs to cite instead of unfolding it. -/

namespace Sys2Proof.Machine

/-! ### Arithmetic -/

/-- A counter below another of its width does not wrap when it goes up by one (R85). -/
theorem toNat_add_one_of_lt {w : Nat} {a b : BitVec w} (h : a.toNat < b.toNat) : (a + 1).toNat = a.toNat + 1 := by
  have hb := b.isLt
  cases w with
  | zero => simp at hb; omega
  | succ n =>
    have h1 : (1 : BitVec (n + 1)).toNat = 1 := by simp
    rw [BitVec.toNat_add, h1, Nat.mod_eq_of_lt (by omega)]

/-- R6: `u(neg_N(v)) = (2^N - u(v)) mod 2^N`. -/
theorem negN_toNat {w : Nat} (e : BitVec w) : (negN e).toNat = (2 ^ w - e.toNat) % 2 ^ w := by
  simp [negN]

/-- The bit index goes down by one unless it is zero. -/
theorem bitIndex_sub_one {b : BitIndex} (h : b ≠ 0) : (b - 1).toNat = b.toNat - 1 := by
  revert b; decide

theorem bitIndex_le (b : BitIndex) : b.toNat ≤ 15 := by have := b.isLt; omega

/-! ### Memory primitives -/

/-- Every element of `OUT` after a symbol is stored. -/
@[simp] theorem outAt_storeSymbol (s : State) (v : BitVec s.params.outW) (a : Nat) :
    outAt (storeSymbol s v) a = if a = s.prod.toNat then v.toNat else outAt s a := by
  show ((s.out.write s.prod.toNat v).read (Config.unwrittenOut s.params.outW) a).toNat = _
  rw [read_write]
  split_ifs <;> rfl

@[simp] theorem outAt_emitSymbol (s : State) (v : BitVec s.params.outW) (a : Nat) :
    outAt (emitSymbol s v) a = if a = s.prod.toNat then v.toNat else outAt s a := outAt_storeSymbol s v a

theorem out_wf_storeSymbol (s : State) (v : BitVec s.params.outW) (h : s.out.wf (2 ^ s.params.cntW) = true) :
    (storeSymbol s v).out.wf (2 ^ s.params.cntW) = true := wf_write h s.prod.isLt

theorem out_wf_emitSymbol (s : State) (v : BitVec s.params.outW) (h : s.out.wf (2 ^ s.params.cntW) = true) :
    (emitSymbol s v).out.wf (2 ^ s.params.cntW) = true := wf_write h s.prod.isLt

/-- One more symbol is produced (R81, R69). -/
theorem storeSymbol_prod (s : State) (v : BitVec s.params.outW) (h : s.prod.toNat < s.xsz.toNat) :
    (storeSymbol s v).prod.toNat = s.prod.toNat + 1 := toNat_add_one_of_lt h

theorem emitSymbol_prod (s : State) (v : BitVec s.params.outW) (h : s.prod.toNat < s.xsz.toNat) :
    (emitSymbol s v).prod.toNat = s.prod.toNat + 1 := toNat_add_one_of_lt h

/-! ### Parts of an engine step -/

/-- What `fetchEntry` answers, and when (R67). -/
theorem fetchEntry_cases (s : State) :
    (s.node.toNat < s.ltlen.toNat ∧ fetchEntry s = .ok (linkEntry s s.node.toNat)) ∨
    (s.ltlen.toNat ≤ s.node.toNat ∧ fetchEntry s = .error .malformedTree) := by
  simp only [fetchEntry, nodeInTable, decide_eq_true_eq]
  split_ifs with h
  · exact .inl ⟨h, rfl⟩
  · exact .inr ⟨Nat.le_of_not_lt h, rfl⟩

/-- The cursor after a bit (R84), when a bit was there. -/
theorem advanceCursor_spec (s : State) (h : s.wordi.toNat < s.hxsz.toNat) :
    (advanceCursor s).wordi.toNat = (if s.biti = 0 then s.wordi.toNat + 1 else s.wordi.toNat) ∧
    bitsConsumed (advanceCursor s) = bitsConsumed s + 1 := by
  have hw : (advanceCursor s).wordi.toNat = (if s.biti = 0 then s.wordi.toNat + 1 else s.wordi.toNat) := by
    show (if s.biti = 0 then s.wordi + 1 else s.wordi).toNat = _
    split_ifs
    · exact toNat_add_one_of_lt h
    · rfl
  refine ⟨hw, ?_⟩
  have hb := bitIndex_le s.biti
  simp only [bitsConsumed, hw, advanceCursor_biti]
  split_ifs with h0
  · simp only [h0]; simp; omega
  · have := bitIndex_sub_one h0
    have : s.biti.toNat ≠ 0 := fun hz => h0 (BitVec.eq_of_toNat_eq hz)
    omega

/-- The cursor of `followLink` is that of `advanceCursor`. -/
theorem followLink_cursor (m : Nat) (s : State) :
    (followLink m s).wordi.toNat = (advanceCursor s).wordi.toNat ∧
    bitsConsumed (followLink m s) = bitsConsumed (advanceCursor s) := ⟨rfl, rfl⟩

/-- R34: the bit a link reads is the stream's next one. -/
theorem streamBit_eq_bitAt (s : State) : streamBit s s.wordi.toNat s.biti.toNat = bitAt s (bitsConsumed s) := by
  have hb := bitIndex_le s.biti
  simp only [bitAt, bitsConsumed]
  have h1 : (16 * s.wordi.toNat + (15 - s.biti.toNat)) / 16 = s.wordi.toNat := by omega
  have h2 : 15 - (16 * s.wordi.toNat + (15 - s.biti.toNat)) % 16 = s.biti.toNat := by omega
  rw [h1, h2]

/-- A child of a legal link fits `NODE` (R83). -/
theorem childOf_lt {p : Params} {m : Nat} (b : Bool) (h : m < 2 ^ p.nodeW) : childOf m b < 2 ^ p.nodeW := by
  unfold childOf
  split_ifs <;> omega

/-- The child that `followLink` goes to (R80). -/
theorem followLink_node (m : Nat) (s : State) (h : m < 2 ^ s.params.nodeW) :
    (followLink m s).node.toNat = childOf m ((engineWord s).getLsbD s.biti.toNat) :=
  Nat.mod_eq_of_lt (childOf_lt _ h)

/-- The word a link uses is the one in memory or an earlier content of it (93_implementation_defined.md U8). -/
theorem engineWord_cases (s : State) : engineWord s = streamWord s s.wordi.toNat ∨ engineWord s ∈ s.stale := by
  by_cases h : Config.bufferChoice s.draws < s.stale.length
  · exact .inr (by rw [engineWord, List.getD_eq_getElem _ _ h]; exact List.getElem_mem h)
  · exact .inl (List.getD_eq_default _ _ (Nat.le_of_not_lt h))

/-- With nothing stale the word is the one in memory. -/
theorem engineWord_of_fresh {s : State} (h : s.stale = []) : engineWord s = streamWord s s.wordi.toNat := by
  simp [engineWord, h]

/-- With nothing stale a link reads the stream's next bit. -/
theorem engineBit_of_fresh {s : State} (h : s.stale = []) :
    (engineWord s).getLsbD s.biti.toNat = bitAt s (bitsConsumed s) := by
  rw [engineWord_of_fresh h, ← streamBit_eq_bitAt]; rfl

/-- The entry the engine fetches. -/
abbrev entryHere (s : State) : BitVec s.params.linkW := linkEntry s s.node.toNat

/-- What the trailing read answers, and when (R69). -/
theorem trailing_cases (s : State) :
    (s.node.toNat < s.ltlen.toNat ∧
      trailing s = .ok (storeSymbol (onLinkPort s (entryHere s)) (negN (entryHere s)))) ∨
    (s.ltlen.toNat ≤ s.node.toNat ∧ trailing s = .error .malformedTree) := by
  rcases fetchEntry_cases s with ⟨h, hf⟩ | ⟨h, hf⟩
  · exact .inl ⟨h, by simp only [trailing, hf]⟩
  · exact .inr ⟨h, by simp only [trailing, hf]⟩

/-- Everything `START` can do (R97, R98). -/
theorem startDecode_cases (s : State) :
    (s.status = .busy ∧ startDecode s = s) ∨
    (s.status ≠ .busy ∧ startDecode s =
      { s with node := 0, biti := 15, wordi := 0, prod := 0, cause := .none, status := .busy, stale := [] }) := by
  unfold startDecode
  split_ifs with h
  · exact .inl ⟨h, rfl⟩
  · exact .inr ⟨h, rfl⟩

/-- What a platform write leaves for a buffer: one content more only when it hits the current word (U8). -/
theorem staleAfter_cases (a : Nat) (s : State) :
    (s.status = .busy ∧ a = s.wordi.toNat ∧ a < s.hxsz.toNat ∧ staleAfter a s = s.stale ++ [streamWord s a]) ∨
    staleAfter a s = s.stale := by
  unfold staleAfter
  split_ifs with h
  · exact .inl ⟨h.1, h.2.1, h.2.2, rfl⟩
  · exact .inr rfl

/-- Everything a register write can do (R95). -/
theorem writeReg_cases (n : RegNo) (d : Nat) (s : State) :
    (n = 0 ∧ d.testBit 0 = true ∧ writeReg n d s = startDecode s) ∨
    writeReg n d s = s ∨
    (s.status ≠ .busy ∧ n = 2 ∧ writeReg n d s = { s with xsz := portField s.params s.params.cntW d }) ∨
    (s.status ≠ .busy ∧ n = 3 ∧ writeReg n d s = { s with hxsz := portField s.params s.params.widxW d }) ∨
    (s.status ≠ .busy ∧ n = 4 ∧ writeReg n d s = { s with ltlen := portField s.params s.params.linkW d }) := by
  unfold writeReg
  split_ifs <;> simp_all

/-- The field of a register write is the low bits of the data (10_state.md R18). -/
theorem toNat_portField (p : Params) (w d : Nat) (h : d < 2 ^ p.regW) : (portField p w d).toNat = d % 2 ^ w := by
  simp [portField, Nat.mod_eq_of_lt h]

/-- The register port is wide enough for every field (00_scope.md R4, D10), so a read loses nothing. -/
theorem toNat_portData (p : Params) {w : Nat} (v : BitVec w) (h : w ≤ p.regW) : (portData p v).toNat = v.toNat := by
  simp only [portData, BitVec.toNat_setWidth]
  exact Nat.mod_eq_of_lt (lt_of_lt_of_le v.isLt (Nat.pow_le_pow_right (by norm_num) h))

end Sys2Proof.Machine
end

