-- ==== Sys2Proof/Laws/Decode.lean ====
section
/-! SUPPORT. What the entry decoder answers for each class (30_encoding.md R51), and what the engine then does. -/

namespace Sys2Proof

/-- A two's complement integer is positive exactly when its pattern is not zero and its sign bit is clear. -/
theorem toInt_pos_iff {w : Nat} (e : BitVec w) : 0 < e.toInt ↔ e ≠ 0 ∧ e.msb = false := by
  rw [BitVec.toInt_eq_msb_cond]
  have hlt := e.isLt
  cases hm : e.msb
  · simp only [Bool.false_eq_true, if_false, and_true, ne_eq]
    constructor
    · rintro h rfl
      simp at h
    · intro h
      have : e.toNat ≠ 0 := fun hz => h (BitVec.eq_of_toNat_eq (by simpa using hz))
      omega
  · simp only [if_true, reduceCtorEq, and_false, iff_false]
    have h2 : (e.toNat : Int) < (2 ^ w : Nat) := by exact_mod_cast hlt
    push_cast at h2
    omega

/-- A positive entry is read the same signed and unsigned (R52). -/
theorem toInt_eq_toNat_of_pos {w : Nat} {e : BitVec w} (h : 0 < e.toInt) : e.toInt = e.toNat := by
  have hm := ((toInt_pos_iff e).mp h).2
  rw [BitVec.toInt_eq_msb_cond]
  simp [hm]

/-- The class `LINK` (R51, R52). -/
theorem decodeEntry_of_pos {w : Nat} {e : BitVec w} (h : 0 < e.toInt) : decodeEntry e = .link e.toInt.toNat := by
  obtain ⟨h0, hm⟩ := (toInt_pos_iff e).mp h
  have h0' : ¬e = 0#w := h0
  simp [decodeEntry, h0', hm, toInt_eq_toNat_of_pos h]

/-- The symbol of a leaf entry is exactly the negation of its integer (41_link_and_leaf.md R82). -/
theorem negN_toInt {w : Nat} (e : BitVec w) (h : e.toInt ≤ 0) : ((negN e).toNat : Int) = -e.toInt := by
  rw [Machine.negN_toNat]
  have hlt := e.isLt
  rw [BitVec.toInt_eq_msb_cond] at h ⊢
  split_ifs at h ⊢ with hm
  · have : e.toNat ≠ 0 := by
      intro hz
      have : e = 0 := BitVec.eq_of_toNat_eq (by simpa using hz)
      subst this; simp at hm
    rw [Nat.mod_eq_of_lt (by omega)]
    rw [Nat.cast_sub hlt.le]; push_cast; ring
  · have : e.toNat = 0 := by omega
    rw [this]; simp

/-- An integer that fits is spelled without loss (20_memory.md R32). -/
theorem toInt_ofInt_of_fits (p : Params) (e : Int) (h : entryFits p e = true) :
    (BitVec.ofInt p.linkW e).toInt = e := by
  simp [entryFits] at h
  rw [BitVec.toInt_ofInt]
  rw [Int.bmod_eq_of_le]
  · push_cast; rw [pow_succ]; omega
  · push_cast; rw [pow_succ]; omega

/-- A positive entry is below half the range of its width (R52). -/
theorem toNat_lt_half {w : Nat} {e : BitVec (w + 1)} (h : 0 < e.toInt) : e.toInt.toNat < 2 ^ w := by
  have h1 : e.toInt < 2 ^ w := by simpa using @BitVec.toInt_lt (w + 1) e
  have h2 : ((2 ^ w : Nat) : Int) = 2 ^ w := by push_cast; rfl
  omega

namespace Machine

/-- A leaf entry emits its negation (R53, R81). -/
theorem exec_leafEntry (s : State) (e : BitVec s.params.linkW) (h : e.toInt ≤ 0) :
    exec (decodeEntry e) s = .next (emitSymbol s (negN e)) := by
  by_cases h0 : e = 0
  · have : negN e = 0 := by
      apply BitVec.eq_of_toNat_eq
      rw [negN_toNat, h0]
      simp
    rw [this]
    simp only [decodeEntry, h0, if_true]
    rfl
  · have hm : e.msb = true := by
      by_contra hm
      exact absurd ((toInt_pos_iff e).mpr ⟨h0, by simpa using hm⟩) (by omega)
    have h0' : ¬e = 0#_ := h0
    have hd : decodeEntry e = .leafNeg (negN e).toNat := by simp [decodeEntry, h0', hm]
    rw [hd]
    show Host.Outcome.next (emitSymbol s (BitVec.ofNat s.params.outW (negN e).toNat)) = _
    congr 2
    simp

/-- A link entry takes the child its bit selects, or raises `OutOfBits` (R80). -/
theorem exec_linkEntry (s : State) (e : BitVec s.params.linkW) (h : 0 < e.toInt) :
    (s.wordi.toNat < s.hxsz.toNat ∧ exec (decodeEntry e) s = .next (followLink e.toInt.toNat s)) ∨
    (s.hxsz.toNat ≤ s.wordi.toNat ∧ exec (decodeEntry e) s = .next (raise .outOfBits s)) := by
  rw [decodeEntry_of_pos h]
  show (_ ∧ execLink _ s = _) ∨ (_ ∧ execLink _ s = _)
  simp only [execLink, bitsLeft, decide_eq_true_eq]
  split_ifs with hb
  · exact .inl ⟨hb, rfl⟩
  · exact .inr ⟨Nat.le_of_not_lt hb, rfl⟩

end Machine

end Sys2Proof
end

