-- ==== Sys2Proof/Laws/PerInstr.lean ====
section
/-! SUPPORT. A statement about each operation as syntax, one lemma per constructor of `Instr`. -/

/-- Which operations have an encoding (30_encoding.md R60): all but `FETCH`, `FINISH` and `TRAIL`, whatever the
parameters and the operands. -/
def Sys2Proof.Laws.Codes.Statement (i : Sys2Proof.Instr) : Prop :=
  ∀ p : Sys2Proof.Params, (Sys2Proof.encode p i).isSome = true ↔ i ≠ .fetch ∧ i ≠ .finish ∧ i ≠ .trail

namespace Sys2Proof.Laws.Codes

theorem leafZero : Statement .leafZero := fun _ => ⟨fun _ => ⟨nofun, nofun, nofun⟩, fun _ => rfl⟩

theorem leafNeg (v : Nat) : Statement (.leafNeg v) := fun _ => ⟨fun _ => ⟨nofun, nofun, nofun⟩, fun _ => rfl⟩

theorem link (m : Nat) : Statement (.link m) := fun _ => ⟨fun _ => ⟨nofun, nofun, nofun⟩, fun _ => rfl⟩

theorem fetch : Statement .fetch := fun _ => ⟨nofun, fun h => absurd rfl h.1⟩

theorem finish : Statement .finish := fun _ => ⟨nofun, fun h => absurd rfl h.2.1⟩

theorem trail : Statement .trail := fun _ => ⟨nofun, fun h => absurd rfl h.2.2⟩

theorem start : Statement .start := fun _ => ⟨fun _ => ⟨nofun, nofun, nofun⟩, fun _ => rfl⟩

theorem regWrite (n : RegNo) (d : Nat) : Statement (.regWrite n d) :=
  fun _ => ⟨fun _ => ⟨nofun, nofun, nofun⟩, fun _ => rfl⟩

theorem regRead (n : RegNo) : Statement (.regRead n) := fun _ => ⟨fun _ => ⟨nofun, nofun, nofun⟩, fun _ => rfl⟩

end Sys2Proof.Laws.Codes
end

