-- ==== Sys2Proof/Laws/Step.lean ====
section
/-! SUPPORT. What one step can do: the inversion lemmas that proofs about runs cite instead of unfolding `step`. -/

namespace Sys2Proof.Machine

/-- Everything an engine step can do (40_sequencing.md R65), in the order of the tests of 60_exceptions.md R115. -/
theorem engineStep_cases (s : State) :
    (s.xsz.toNat ≤ s.prod.toNat ∧ engineStep s = .next { s with status := .done }) ∨
    (s.prod.toNat < s.xsz.toNat ∧ s.ltlen.toNat ≤ s.node.toNat ∧ engineStep s = .next (raise .malformedTree s)) ∨
    (s.prod.toNat < s.xsz.toNat ∧ s.node.toNat < s.ltlen.toNat ∧ entryAt s s.node.toNat ≤ 0 ∧
      engineStep s = .next (emitSymbol (onLinkPort s (entryHere s)) (negN (entryHere s)))) ∨
    (s.prod.toNat < s.xsz.toNat ∧ s.node.toNat < s.ltlen.toNat ∧ 0 < entryAt s s.node.toNat ∧
      s.wordi.toNat < s.hxsz.toNat ∧
      engineStep s = .next (followLink (entryAt s s.node.toNat).toNat (onLinkPort s (entryHere s)))) ∨
    (s.prod.toNat < s.xsz.toNat ∧ s.node.toNat < s.ltlen.toNat ∧ 0 < entryAt s s.node.toNat ∧
      s.hxsz.toNat ≤ s.wordi.toNat ∧
      engineStep s = .next (raise .outOfBits (onLinkPort s (entryHere s)))) := by
  by_cases hl : s.prod.toNat < s.xsz.toNat
  · have hgo : loopGoes s = true := by simpa [loopGoes] using hl
    rcases fetchEntry_cases s with ⟨hn, hf⟩ | ⟨hn, hf⟩
    · have he : engineStep s = exec (decodeEntry (entryHere s)) (onLinkPort s (entryHere s)) := by
        simp only [engineStep, hgo, if_true, hf]
      by_cases hp : 0 < entryAt s s.node.toNat
      · rcases exec_linkEntry (onLinkPort s (entryHere s)) (entryHere s) hp with ⟨hb, hx⟩ | ⟨hb, hx⟩
        · exact .inr (.inr (.inr (.inl ⟨hl, hn, hp, hb, he.trans hx⟩)))
        · exact .inr (.inr (.inr (.inr ⟨hl, hn, hp, hb, he.trans hx⟩)))
      · have hp' : entryAt s s.node.toNat ≤ 0 := by omega
        exact .inr (.inr (.inl ⟨hl, hn, hp',
          he.trans (exec_leafEntry (onLinkPort s (entryHere s)) (entryHere s) hp')⟩))
    · exact .inr (.inl ⟨hl, hn, by simp only [engineStep, hgo, if_true, hf]⟩)
  · refine .inl ⟨Nat.le_of_not_lt hl, ?_⟩
    have hgo : loopGoes s = false := by simpa [loopGoes] using hl
    have ht : trailDue s = false := by simp only [trailDue, decide_eq_false_iff_not]; omega
    simp only [engineStep, hgo, Bool.false_eq_true, if_false]
    show execFinish s = _
    simp only [execFinish, ht, Bool.false_eq_true, if_false]

/-- What an engine step leaves, case by case: which parts it changes and to what. -/
inductive EngineOutcome (s t : State) : Prop
  /-- The loop exit (R66). -/
  | exit (range : s.xsz.toNat ≤ s.prod.toNat) (status : t.status = .done) (ports : t.ports = s.ports)
      (frame : ChangesOnly [.status] s t)
  /-- `NODE` is not in the table (R67). -/
  | offTable (more : s.prod.toNat < s.xsz.toNat) (range : s.ltlen.toNat ≤ s.node.toNat) (status : t.status = .fault)
      (cause : t.cause = .malformedTree) (ports : t.ports = s.ports) (frame : ChangesOnly [.status, .cause] s t)
  /-- A leaf (R81). -/
  | leaf (more : s.prod.toNat < s.xsz.toNat) (range : s.node.toNat < s.ltlen.toNat)
      (cls : entryAt s s.node.toNat ≤ 0) (node : t.node.toNat = 0) (prod : t.prod.toNat = s.prod.toNat + 1)
      (out : ∀ a, outAt t a = if a = s.prod.toNat then (negN (entryHere s)).toNat else outAt s a)
      (ports : t.ports = s.ports ++ [.linkRead s.node.toNat (entryHere s).toNat,
        .outWrite s.prod.toNat (negN (entryHere s)).toNat])
      (frame : ChangesOnly [.node, .prod, .out, .ports] s t)
  /-- A link with a bit left (R80). -/
  | link (more : s.prod.toNat < s.xsz.toNat) (range : s.node.toNat < s.ltlen.toNat)
      (cls : 0 < entryAt s s.node.toNat) (left : s.wordi.toNat < s.hxsz.toNat)
      (node : t.node.toNat = childOf (entryAt s s.node.toNat).toNat ((engineWord s).getLsbD s.biti.toNat))
      (biti : t.biti = if s.biti = 0 then 15 else s.biti - 1)
      (wordi : t.wordi.toNat = if s.biti = 0 then s.wordi.toNat + 1 else s.wordi.toNat)
      (consumed : bitsConsumed t = bitsConsumed s + 1)
      (ports : t.ports = s.ports ++ [.linkRead s.node.toNat (entryHere s).toNat,
        .streamRead s.wordi.toNat (engineWord s).toNat])
      (stale : t.stale = if s.biti = 0 then [] else s.stale) (draws : t.draws = s.draws + 1)
      (frame : ChangesOnly [.node, .biti, .wordi, .stale, .draws, .ports] s t)
  /-- A link with no bit left (R111). -/
  | dry (more : s.prod.toNat < s.xsz.toNat) (range : s.node.toNat < s.ltlen.toNat)
      (cls : 0 < entryAt s s.node.toNat) (empty : s.hxsz.toNat ≤ s.wordi.toNat) (status : t.status = .fault)
      (cause : t.cause = .outOfBits) (ports : t.ports = s.ports ++ [.linkRead s.node.toNat (entryHere s).toNat])
      (frame : ChangesOnly [.status, .cause, .ports] s t)

/-- Every engine step has a next state, which is one of the five. -/
theorem engineStep_outcome (s : State) : ∃ t, engineStep s = .next t ∧ EngineOutcome s t ∧ (MemoriesOk s → MemoriesOk t) := by
  rcases engineStep_cases s with ⟨h, hx⟩ | ⟨h, h2, hx⟩ | ⟨h, h2, h3, hx⟩ | ⟨h, h2, h3, h4, hx⟩ | ⟨h, h2, h3, h4, hx⟩
  · refine ⟨_, hx, .exit h rfl rfl ?_, id⟩
    intro p hp
    cases p <;> first | exact absurd (by decide) hp | rfl | exact fun _ => rfl
  · refine ⟨_, hx, .offTable h h2 rfl rfl rfl ?_, id⟩
    intro p hp
    cases p <;> first | exact absurd (by decide) hp | rfl | exact fun _ => rfl
  · refine ⟨_, hx, .leaf h h2 h3 rfl (emitSymbol_prod (onLinkPort s (entryHere s)) _ h)
      (fun a => outAt_emitSymbol (onLinkPort s (entryHere s)) _ a) (List.append_assoc _ _ _) ?_,
      fun ⟨m1, m2, m3⟩ => ⟨m1, m2, out_wf_emitSymbol (onLinkPort s (entryHere s)) _ m3⟩⟩
    intro p hp
    cases p <;> first | exact absurd (by decide) hp | rfl | exact fun _ => rfl
  · have hc := advanceCursor_spec (onLinkPort s (entryHere s)) h4
    refine ⟨_, hx, .link h h2 h3 h4 (followLink_node _ (onLinkPort s (entryHere s)) (toNat_lt_half h3)) rfl hc.1 hc.2
      (List.append_assoc _ _ _) rfl rfl ?_, id⟩
    intro p hp
    cases p <;> first | exact absurd (by decide) hp | rfl | exact fun _ => rfl
  · refine ⟨_, hx, .dry h h2 h3 h4 rfl rfl rfl ?_, id⟩
    intro p hp
    cases p <;> first | exact absurd (by decide) hp | rfl | exact fun _ => rfl

/-- With no move to come, the engine's comes next. -/
theorem nextMove_nil {s : State} (h : s.agenda = []) : nextMove s = .engine := by simp only [nextMove, h]

/-- When the engine's move comes next, whatever moves come after it, the step is the engine's turn. -/
theorem step_engine {s : State} (h : nextMove s = .engine) : step s = engineTurn (beginStep s) := by
  simp only [step, h, perform]

theorem step_engine_busy {s : State} (h : nextMove s = .engine) (hb : s.status = .busy) :
    step s = engineStep (beginStep s) := by
  rw [step_engine h]
  simp only [engineTurn, beginStep_status, hb, if_true]

theorem step_engine_idle {s : State} (h : nextMove s = .engine) (hb : s.status ≠ .busy) :
    step s = .next (beginStep s) := by
  rw [step_engine h]
  simp only [engineTurn, beginStep_status, hb, if_false]

/-- With moves to come, a step makes the first one. -/
theorem step_move {s : State} {m : Move} {rest : List Move} (h : s.agenda = m :: rest) :
    step s = perform m (beginStep s) := by
  simp only [step, nextMove, h]

/-- Everything a move can do that answers a next state. -/
theorem perform_cases {m : Move} {s t : State} (h : perform m s = .next t) :
    (m = .engine ∧ s.status = .busy ∧ engineStep s = .next t) ∨
    (m = .engine ∧ s.status ≠ .busy ∧ t = s) ∨
    (∃ n d, m = .access (.write n d) ∧ t = writeReg n d s) ∨
    (∃ n, m = .access (.read n) ∧ t = onPort s (.regData n (readReg n s).toNat)) ∨
    (m = .reset ∧ t = resetEvent s) ∨
    (∃ a w, m = .placeStream a w ∧ a < 2 ^ s.params.widxW ∧
      t = { s with stream := s.stream.write a w, stale := staleAfter a s }) ∨
    (∃ a e, m = .placeLink a e ∧ a < 2 ^ s.params.nodeW ∧
      t = { s with link := s.link.write a (BitVec.ofInt s.params.linkW e) }) ∨
    (∃ a v, m = .placeOut a v ∧ a < 2 ^ s.params.cntW ∧
      t = { s with out := s.out.write a (BitVec.ofNat s.params.outW v) }) := by
  cases m with
  | engine =>
    simp only [perform, engineTurn] at h
    split_ifs at h with hb
    · exact .inl ⟨rfl, hb, h⟩
    · cases h; exact .inr (.inl ⟨rfl, hb, rfl⟩)
  | access a =>
    cases a with
    | write n d =>
      refine .inr (.inr (.inl ⟨n, d, rfl, ?_⟩))
      simp only [perform, performAccess, decodeAccess] at h
      split_ifs at h with h1 h2
      · cases h
        simp [writeReg, h2.1, h2.2]
      · cases h; rfl
    | read n =>
      cases h
      exact .inr (.inr (.inr (.inl ⟨n, rfl, rfl⟩)))
  | reset => cases h; exact .inr (.inr (.inr (.inr (.inl ⟨rfl, rfl⟩))))
  | placeStream a w =>
    simp only [perform, placeStream] at h
    split_ifs at h with h1
    cases h
    exact .inr (.inr (.inr (.inr (.inr (.inl ⟨a, w, rfl, h1, rfl⟩)))))
  | placeLink a e =>
    simp only [perform, placeLink] at h
    split_ifs at h with h1 h2
    cases h
    exact .inr (.inr (.inr (.inr (.inr (.inr (.inl ⟨a, e, rfl, h1, rfl⟩))))))
  | placeOut a v =>
    simp only [perform, placeOut] at h
    split_ifs at h with h1 h2
    cases h
    exact .inr (.inr (.inr (.inr (.inr (.inr (.inr ⟨a, v, rfl, h1, rfl⟩))))))

/-- Every step takes its own move off the agenda and leaves the rest. -/
theorem step_agenda {s t : State} (h : step s = .next t) : t.agenda = s.agenda.tail := by
  rcases perform_cases (show perform (nextMove s) (beginStep s) = .next t from h) with
    ⟨-, -, hx⟩ | ⟨-, -, rfl⟩ | ⟨n, d, -, rfl⟩ | ⟨n, -, rfl⟩ | ⟨-, rfl⟩ | ⟨a, w, -, -, rfl⟩ | ⟨a, e, -, -, rfl⟩ | ⟨a, v, -, -, rfl⟩
  · obtain ⟨u, hu, ho, -⟩ := engineStep_outcome (beginStep s)
    rw [hx] at hu
    cases hu
    cases ho <;> exact (by assumption : ChangesOnly _ _ _) .agenda (by decide)
  · rfl
  · rcases writeReg_cases n d (beginStep s) with ⟨-, -, hx⟩ | hx | ⟨-, -, hx⟩ | ⟨-, -, hx⟩ | ⟨-, -, hx⟩ <;> rw [hx]
    · rcases startDecode_cases (beginStep s) with ⟨-, hy⟩ | ⟨-, hy⟩ <;> rw [hy] <;> rfl
    all_goals rfl
  all_goals rfl

end Sys2Proof.Machine
end

