-- ==== Sys2Proof/Laws/Run.lean ====
section
/-! SUPPORT. Runs of several steps, from single ones. -/

namespace Sys2Proof.Machine

/-- The host's run is the model's `after`. -/
theorem core_run_eq_after (k : Nat) (s : State) : Sys2Proof.core.run k s = after k s := by
  induction k generalizing s with
  | zero => rfl
  | succ k ih =>
    cases hs : step s with
    | next t =>
      have hc : Sys2Proof.core.step s = .next t := hs
      simp only [Host.Core.run, after, hs, hc]
      exact ih t
    | fault r =>
      have hc : Sys2Proof.core.step s = .fault r := hs
      simp only [Host.Core.run, after, hs, hc]
      rfl
    | refused r =>
      have hc : Sys2Proof.core.step s = .refused r := hs
      simp only [Host.Core.run, after, hs, hc]
      rfl

theorem after_succ {s t : State} (k : Nat) (h : step s = .next t) : after (k + 1) s = after k t := by
  show (match step s with | .next u => after k u | .fault r => .fault r | .refused r => .refused r) = _
  rw [h]

/-- A run that reaches a state begins with a step. -/
theorem after_succ_next {s t : State} {k : Nat} (h : after (k + 1) s = .next t) :
    ∃ u, step s = .next u ∧ after k u = .next t := by
  cases hs : step s with
  | next u => exact ⟨u, rfl, (after_succ k hs).symm.trans h⟩
  | fault r => simp only [after, hs, reduceCtorEq] at h
  | refused r => simp only [after, hs, reduceCtorEq] at h

theorem after_add {s t : State} (a b : Nat) (h : after a s = .next t) : after (a + b) s = after b t := by
  induction a generalizing s with
  | zero => cases h; simp
  | succ a ih =>
    obtain ⟨u, hs, hu⟩ := after_succ_next h
    rw [show a + 1 + b = (a + b) + 1 by omega, after_succ _ hs]
    exact ih hu

/-- With no move to come and no decode running, a run changes nothing but the record of the ports. -/
theorem after_idle {s : State} (ha : s.agenda = []) (hb : s.status ≠ .busy) (k : Nat) :
    after k s = .next (if k = 0 then s else beginStep s) := by
  induction k generalizing s with
  | zero => rfl
  | succ k ih =>
    rw [after_succ k (step_engine_idle (nextMove_nil ha) hb), ih (by simp [ha]) (by simpa using hb)]
    simp only [Nat.succ_ne_zero, if_false]
    split_ifs
    · rfl
    · congr 1
      show ({ s with agenda := s.agenda.tail.tail, ports := [] } : State) = { s with agenda := s.agenda.tail, ports := [] }
      rw [ha]; rfl

end Sys2Proof.Machine
end

