-- ==== Sys2Proof/Tests/Slice0.lean ====
section
/-! SUPPORT. The model's own tests, with expected results from 95_test_vectors.md and the worked examples of the rules,
and a witness for the hypotheses of every statement that has any. -/

namespace Sys2Proof.Tests

open Sys2Proof Sys2Proof.Machine

/-! ### Small states -/

/-- The operands and memories of 95_test_vectors.md S1, before `START`. -/
def loaded : State :=
  { State.reset with
    xsz := 2
    hxsz := 1
    ltlen := 3
    link := [(0, 2), (1, -5), (2, -7)]
    stream := [(0, 0x8000)] }

/-- S1 right after `START`. -/
def running : State := startDecode loaded

/-- A running decode at a node, with its entry and the cursor's word as given, as in the rows of V2 and V3. -/
def busyAt (node : Nat) (entry : Int) (wordi biti hxsz : Nat) (word : StreamWord) (prod : Nat) : State :=
  { running with
    node := BitVec.ofNat _ node
    wordi := BitVec.ofNat _ wordi
    biti := BitVec.ofNat 4 biti
    hxsz := BitVec.ofNat _ hxsz
    prod := BitVec.ofNat _ prod
    xsz := BitVec.ofNat _ (prod + 1)
    ltlen := BitVec.ofNat _ 0xFFFFFFFF
    link := [(node, BitVec.ofInt _ entry)]
    stream := [(wordi, word)] }

/-- The same decode in another state of the engine. -/
def stopped (st : Status) (c : Cause) (s : State) : State := { s with status := st, cause := c }

/-- What a test looks at: `NODE`, `WORDI`, `BITI`, `PROD`, `STATE`, `CAUSE`. -/
def look (o : Host.Outcome State Fault Refusal) : Option (Nat × Nat × Nat × Nat × Status × Cause) :=
  match o with
  | .next t => some (t.node.toNat, t.wordi.toNat, t.biti.toNat, t.prod.toNat, t.status, t.cause)
  | .fault _ => none
  | .refused _ => none

/-- The ports of a step. -/
def seen (o : Host.Outcome State Fault Refusal) : Option (List PortEvent) :=
  match o with
  | .next t => some t.ports
  | .fault _ => none
  | .refused _ => none

/-- The three operand registers after a step. -/
def operands (o : Host.Outcome State Fault Refusal) : Option (Nat × Nat × Nat) :=
  match o with
  | .next t => some (t.xsz.toNat, t.hxsz.toNat, t.ltlen.toNat)
  | .fault _ => none
  | .refused _ => none

/-- One listed output element after a step. -/
def listed (a : Nat) (o : Host.Outcome State Fault Refusal) : Option Nat :=
  match o with
  | .next t => (t.out.find a).map BitVec.toNat
  | .fault _ => none
  | .refused _ => none

/-! ### Well-formedness: an ill-formed term for each check -/

theorem test_wf_leafNeg_zero : (Instr.leafNeg 0).wf Params.default = false := by decide
theorem test_wf_leafNeg_above : (Instr.leafNeg 2147483649).wf Params.default = false := by decide
theorem test_wf_leafNeg_most : (Instr.leafNeg 2147483648).wf Params.default = true := by decide
theorem test_wf_link_zero : (Instr.link 0).wf Params.default = false := by decide
theorem test_wf_link_above : (Instr.link 2147483648).wf Params.default = false := by decide
theorem test_wf_link_most : (Instr.link 2147483647).wf Params.default = true := by decide
theorem test_wf_regWrite_is_start : (Instr.regWrite 0 1).wf Params.default = false := by decide
theorem test_wf_regWrite_data : (Instr.regWrite 2 4294967296).wf Params.default = false := by decide
theorem test_wf_regWrite_most : (Instr.regWrite 15 4294967295).wf Params.default = true := by decide

/-! ### Decoding: words written out from 30_encoding.md -/

/-- The row `LEAF` zero: all bits zero. -/
theorem test_decode_leafZero : decodeTableWord 32 0b00000000000000000000000000000000 = some .leafZero := by decide
/-- V1: 0xFFFFFFFF is the leaf of the symbol 1. -/
theorem test_decode_leafNeg : decodeTableWord 32 0b11111111111111111111111111111111 = some (.leafNeg 1) := by decide
/-- V1: the most negative entry. -/
theorem test_decode_leafNeg_most :
    decodeTableWord 32 0b10000000000000000000000000000000 = some (.leafNeg 2147483648) := by decide
/-- P1, node 2: `LEAF 10` is 0xFFFFFFF6. -/
theorem test_decode_leafNeg_ten : decodeTableWord 32 0b11111111111111111111111111110110 = some (.leafNeg 10) := by decide
/-- V1: the greatest link. -/
theorem test_decode_link : decodeTableWord 32 0b01111111111111111111111111111111 = some (.link 2147483647) := by decide
/-- P1, node 3: `LINK 6` is 0x00000006. -/
theorem test_decode_link_six : decodeTableWord 32 0b00000000000000000000000000000110 = some (.link 6) := by decide
/-- The least width that R4 allows, `LINK_W = 2`: 01 is `LINK 1`, 10 is `LEAF 2`. -/
theorem test_decode_narrow : decodeEntry (0b01 : BitVec 2) = .link 1 ∧ decodeEntry (0b10 : BitVec 2) = .leafNeg 2 := by
  decide
/-- R58: the data bits above bit 0 of a write to `CTRL` are ignored. -/
theorem test_decode_start : decodeAccess Params.default (.write 0 0b11) = .ok .start := rfl
/-- V11: `RegWrite(0, 0xFFFFFFFE)` is no command. -/
theorem test_decode_ctrl_even :
    decodeAccess Params.default (.write 0 0b11111111111111111111111111111110) = .ok (.regWrite 0 4294967294) := rfl
theorem test_decode_regWrite : decodeAccess Params.default (.write 0b0100 0b1) = .ok (.regWrite 4 1) := rfl
theorem test_decode_regRead : decodeAccess Params.default (.read 0b0000) = .ok (.regRead 0) := rfl

theorem test_reject_wide_word : decodeCode Params.default (.entry 4294967296) = .error .wordTooWide := rfl
theorem test_reject_integer : decodeInteger Params.default 2147483648 = .error .entryDoesNotFit := rfl
theorem test_reject_data : decodeAccess Params.default (.write 2 4294967296) = .error .dataDoesNotFit := rfl

/-- `[2, -5, -7]` as in 30_encoding.md R59. -/
theorem test_listing :
    (Instr.link 2).listing 0 = some "0: LINK 2" ∧ (Instr.leafNeg 5).listing 1 = some "1: LEAF 5" ∧
    Instr.leafZero.listing 2 = some "2: LEAF 0" := by decide

/-- P1: `LEAF 40` is encoded 0xFFFFFFD8. -/
theorem test_encode_leaf : encodeEntry Params.default (.leafNeg 40) = some (0xFFFFFFD8 : BitVec 32) := rfl
/-- R58. -/
theorem test_encode_start : encode Params.default .start = some (.access (.write 0 1)) := by decide
theorem test_encode_none : encode Params.default .trail = none := by decide

/-! ### Single steps -/

/-- V2: the last bit of the last word is read, and this step does not fault. -/
theorem test_link_last_bit : look (step (busyAt 3 6 0 0 1 0x0000 0)) = some (5, 1, 15, 0, .busy, .none) := by decide
/-- V2: the greatest link, bit 1, in the middle of the stream. -/
theorem test_link_greatest :
    look (step (busyAt 5 0x7FFFFFFF 4 3 9 0x0008 0)) = some (2147483647, 4, 2, 0, .busy, .none) := by decide
/-- V2, R116: no word left; nothing but `STATE` and `CAUSE` is written, and the stream port stays quiet. -/
theorem test_outOfBits :
    look (step (busyAt 3 6 1 15 1 0x0000 0)) = some (3, 1, 15, 0, .fault, .outOfBits) ∧
    seen (step (busyAt 3 6 1 15 1 0x0000 0)) = some [.linkRead 3 6] := by decide

/-- V3: the entry zero at `PROD = 5`. -/
theorem test_leafZero :
    look (step (busyAt 1 0 0 15 1 0x8000 5)) = some (0, 0, 15, 6, .busy, .none) ∧
    listed 5 (step (busyAt 1 0 0 15 1 0x8000 5)) = some 0 := by decide
/-- V3: the most negative entry at `PROD = 1`. -/
theorem test_leafNeg_most :
    look (step (busyAt 4 (-2147483648) 0 15 1 0x8000 1)) = some (0, 0, 15, 2, .busy, .none) ∧
    listed 1 (step (busyAt 4 (-2147483648) 0 15 1 0x8000 1)) = some 2147483648 := by decide
/-- R81, worked example, with no stream at all. -/
theorem test_leafNeg :
    seen (step (busyAt 2 (-7) 0 15 0 0x0000 0)) = some [.linkRead 2 0xFFFFFFF9, .outWrite 0 7] := by decide

/-- V5: `NODE = 2`, `LTLEN = 3` returns `LINK[2]`, the pattern of -7. -/
theorem test_fetch : seen (exec .fetch { running with node := 2 }) = some [.linkRead 2 0xFFFFFFF9] := by decide
/-- V5: `NODE = LTLEN = 2`. -/
theorem test_fetch_off_table :
    look (exec .fetch { running with node := 2, ltlen := 2 }) = some (2, 0, 15, 0, .fault, .malformedTree) := by decide

/-- V4: `XSZ = 0` ends at once, with no access. -/
theorem test_finish :
    look (step { running with xsz := 0 }) = some (0, 0, 15, 0, .done, .none) ∧
    seen (step { running with xsz := 0 }) = some [] := by decide
/-- R69, the hypothetical worked example: `PROD = 1`, `XSZ = 2`, `NODE = 2`. -/
theorem test_trail :
    look (exec .trail { running with node := 2, prod := 1 }) = some (2, 0, 15, 2, .busy, .none) ∧
    listed 1 (exec .trail { running with node := 2, prod := 1 }) = some 7 := by decide
/-- R66: the condition of `TRAIL` is over the integers; `XSZ = 0` with the greatest `PROD` does not meet it. -/
theorem test_trail_no_wrap : trailDue { running with xsz := 0, prod := -1 } = false := by decide

/-- R97, worked example: `STATE = FAULT`, `CAUSE = 1`, `PROD = 8`, `WORDI = 1`. -/
theorem test_start :
    look (exec .start (stopped .fault .outOfBits { running with prod := 8, wordi := 1 })) =
      some (0, 0, 15, 0, .busy, .none) := by decide
/-- V11: ignored while `BUSY`; the decode continues. -/
theorem test_start_busy :
    look (exec .start { running with prod := 1, biti := 13 }) = some (0, 0, 13, 1, .busy, .none) := by decide
/-- R95, worked example: `STATE = DONE`, `RegWrite(2, 5)`. -/
theorem test_regWrite : operands (exec (.regWrite 2 5) (stopped .done .none running)) = some (5, 1, 3) := by decide
/-- V11: `RegWrite(2, 99)` while `BUSY`. -/
theorem test_regWrite_busy : operands (exec (.regWrite 2 99) running) = some (2, 1, 3) := by decide
/-- V11: `RegRead(8)` after reset. -/
theorem test_regRead : seen (exec (.regRead 8) State.reset) = some [.regData 8 15] := by decide
/-- V5 (a): `STATUS` after `MalformedTree`. -/
theorem test_regRead_status :
    seen (exec (.regRead 1) (stopped .fault .malformedTree running)) = some [.regData 1 0xB] := by decide

/-- V12: reset in the middle of a decode; the output stays. -/
theorem test_reset_event :
    look (step { running with prod := 1, biti := 14, out := [(0, 7)], agenda := [.reset] }) =
      some (0, 0, 15, 0, .idle, .none) ∧
    listed 0 (step { running with prod := 1, biti := 14, out := [(0, 7)], agenda := [.reset] }) = some 7 := by decide

/-- An access of the host through the agenda is one step. -/
theorem test_access_step : look (step { loaded with agenda := [.access (.write 0 3)] }) = some (0, 0, 15, 0, .busy, .none) := by
  decide
/-- R134, R43: a write to the table during a decode is carried out, and the next fetch sees it. -/
theorem test_live_table_write :
    seen (after 2 { running with agenda := [.placeLink 0 (-1)] }) = some [.linkRead 0 0xFFFFFFFF, .outWrite 0 1] := by decide
/-- R134, U8: a write to the current stream word during a decode is carried out, and a buffer may keep the old content. -/
theorem test_live_stream_write :
    ∃ t, step { running with agenda := [.placeStream 0 0x1234] } = .next t ∧ streamWord t 0 = 0x1234 ∧
      t.stale = [0x8000] ∧ t.status = .busy := ⟨_, rfl, rfl, rfl, rfl⟩
/-- The same before `START`: nothing is stale (R42). -/
theorem test_early_stream_write :
    ∃ t, step { loaded with agenda := [.placeStream 0 0x1234] } = .next t ∧ streamWord t 0 = 0x1234 ∧ t.stale = [] :=
  ⟨_, rfl, rfl, rfl⟩
/-- U13. -/
theorem test_integer_too_wide :
    step { loaded with agenda := [.placeLink 0 2147483648] } = .refused (.valueDoesNotFit (some .link)) := rfl
/-- A word put where the next step fetches runs from reset: 0x80000000 emits 2^31. -/
theorem test_withFetchWord : listed 0 (step (State.reset.withFetchWord 32 0x80000000)) = some 2147483648 := by decide

/-! ### Witnesses: concrete states and operands that meet the hypotheses of each statement -/

/-- The end of a decode: S1 at `PROD = XSZ`. -/
def ending : State := { running with prod := 2, biti := 13 }

/-- S1 right after `START`, with a move of the host and a reset to come after the engine's. -/
def runningOn : State := { running with agenda := [.engine, .access (.read 1), .reset] }

/-- Root leaf: `LINK = [-9]`, no stream, `XSZ = 1` (V3). -/
def rootLeaf : State := { loaded with xsz := 1, hxsz := 0, ltlen := 1, link := [(0, -9)], stream := [] }

/-- S1 with `XSZ = 1`. -/
def oneSymbol : State := { loaded with xsz := 1 }

/-- The same inputs as `oneSymbol` after another decode: other registers, other output, an entry outside the table. -/
def oneSymbolAgain : State :=
  { oneSymbol with
    status := .done
    node := 2
    wordi := 1
    biti := 7
    prod := 2
    out := [(0, 99)]
    link := [(0, 2), (1, -5), (2, -7), (3, 4)] }

theorem witness_EntryClassAndOperand :
    0 < (1 : BitVec 32).toInt ∧ 0 < (0x7FFFFFFF : BitVec 32).toInt ∧ (0xFFFFFFFF : BitVec 32).toInt < 0 ∧
    (0x80000000 : BitVec 32).toInt < 0 ∧ (0 : BitVec 32).toInt = 0 := by decide

theorem witness_DecodeOfEncode :
    (Instr.leafNeg 2147483648).wf Params.default = true ∧
    encode Params.default (.leafNeg 2147483648) = some (.entry 0x80000000) ∧
    (Instr.link 1).wf Params.default = true ∧ encode Params.default (.link 1) = some (.entry 1) ∧
    (Instr.regWrite 0 4294967294).wf Params.default = true ∧
    encode Params.default (.regWrite 0 4294967294) = some (.access (.write 0 4294967294)) := by decide

theorem witness_LeafZeroEmitsZero : running.prod.toNat < running.xsz.toNat := by decide

theorem witness_LeafNegEmitsSymbol :
    (Instr.leafNeg 1).wf running.params = true ∧ (Instr.leafNeg 2147483648).wf running.params = true ∧
    running.prod.toNat < running.xsz.toNat := by decide

theorem witness_LeafEntryEmitsNegation :
    (0 : BitVec running.params.linkW).toInt ≤ 0 ∧ (0x80000000 : BitVec running.params.linkW).toInt ≤ 0 ∧
    running.prod.toNat < running.xsz.toNat := by decide

/-- `BITI` at 0 and above 0; the stream exhausted at its first word and with `HXSZ = 0`. -/
theorem witness_LinkTakesChildOrRaises :
    (Instr.link 1).wf running.params = true ∧ (Instr.link 2147483647).wf running.params = true ∧
    running.wordi.toNat < running.hxsz.toNat ∧ running.biti.toNat ≠ 0 ∧
    (busyAt 3 6 0 0 1 0 0).wordi.toNat < (busyAt 3 6 0 0 1 0 0).hxsz.toNat ∧ (busyAt 3 6 0 0 1 0 0).biti.toNat = 0 ∧
    (busyAt 3 6 1 15 1 0 0).hxsz.toNat ≤ (busyAt 3 6 1 15 1 0 0).wordi.toNat ∧
    (busyAt 0 2 0 15 0 0 0).hxsz.toNat ≤ (busyAt 0 2 0 15 0 0 0).wordi.toNat := by decide

theorem witness_LinkConsumesNextStreamBit :
    (Instr.link 1).wf (busyAt 3 6 0 0 1 0 0).params = true ∧
    (busyAt 3 6 0 0 1 0 0).wordi.toNat < (busyAt 3 6 0 0 1 0 0).hxsz.toNat := by decide

/-- The rows of V5. -/
theorem witness_FetchReturnsOrRaises :
    ({ running with node := 2 } : State).node.toNat < running.ltlen.toNat ∧
    ({ running with ltlen := 0 } : State).ltlen.toNat ≤ running.node.toNat ∧
    ({ running with node := 2, ltlen := 2 } : State).ltlen.toNat ≤ 2 ∧
    2 ^ running.params.nodeW ≤ ({ running with ltlen := 0x80000000 } : State).ltlen.toNat := by decide

theorem witness_FinishEndsDecode :
    ending.prod.toNat + 1 ≠ ending.xsz.toNat ∧
    ({ running with prod := 1 } : State).prod.toNat + 1 = running.xsz.toNat ∧ running.node.toNat < running.ltlen.toNat ∧
    ({ running with prod := 1, ltlen := 0 } : State).ltlen.toNat ≤ running.node.toNat := by decide

theorem witness_TrailEmitsNegation :
    ({ running with prod := 1, node := 2 } : State).prod.toNat + 1 = running.xsz.toNat ∧
    ({ running with prod := 1, node := 2 } : State).node.toNat < running.ltlen.toNat ∧
    ({ running with prod := 1, node := 3 } : State).prod.toNat + 1 = running.xsz.toNat ∧
    running.ltlen.toNat ≤ ({ running with prod := 1, node := 3 } : State).node.toNat := by decide

theorem witness_LoopExitNeverTrails :
    nextMove ending = .engine ∧ nextMove { ending with agenda := [.engine, .reset] } = .engine ∧ ending.status = .busy ∧ ending.xsz.toNat ≤ ending.prod.toNat := by decide

theorem witness_EngineStepRunsDecodedEntry :
    (nextMove running = .engine ∧ running.status = .busy ∧ running.prod.toNat < running.xsz.toNat ∧
      running.node.toNat < running.ltlen.toNat ∧ decodeEntry (linkEntry running running.node.toNat) = .link 2) ∧
    (nextMove runningOn = .engine ∧ runningOn.status = .busy ∧ runningOn.prod.toNat < runningOn.xsz.toNat ∧
      runningOn.node.toNat < runningOn.ltlen.toNat ∧
      decodeEntry (linkEntry runningOn runningOn.node.toNat) = .link 2) := by decide

/-- One state for each clause: the loop exit, an empty table with an empty stream (V10), a link with no word, a link with
one, a leaf with no word (V10). -/
theorem witness_FaultTestsInOrder :
    (nextMove ending = .engine ∧ ending.status = .busy ∧ ending.xsz.toNat ≤ ending.prod.toNat) ∧
    (∃ s : State, nextMove s = .engine ∧ s.status = .busy ∧ s.prod.toNat < s.xsz.toNat ∧ s.ltlen.toNat ≤ s.node.toNat ∧
      s.hxsz.toNat ≤ s.wordi.toNat) ∧
    (∃ s : State, nextMove s = .engine ∧ s.status = .busy ∧ s.prod.toNat < s.xsz.toNat ∧ s.node.toNat < s.ltlen.toNat ∧
      0 < entryAt s s.node.toNat ∧ s.hxsz.toNat ≤ s.wordi.toNat) ∧
    (∃ s : State, nextMove s = .engine ∧ s.status = .busy ∧ s.prod.toNat < s.xsz.toNat ∧ s.node.toNat < s.ltlen.toNat ∧
      0 < entryAt s s.node.toNat ∧ s.wordi.toNat < s.hxsz.toNat) ∧
    (∃ s : State, nextMove s = .engine ∧ s.status = .busy ∧ s.prod.toNat < s.xsz.toNat ∧ s.node.toNat < s.ltlen.toNat ∧
      entryAt s s.node.toNat ≤ 0 ∧ s.hxsz.toNat ≤ s.wordi.toNat) :=
  ⟨by decide, ⟨{ running with ltlen := 0, hxsz := 0 }, by decide⟩, ⟨busyAt 3 6 1 15 1 0 0, by decide⟩,
    ⟨runningOn, by decide⟩, ⟨startDecode rootLeaf, by decide⟩⟩

theorem witness_IdleEngineKeepsState : nextMove loaded = .engine ∧ nextMove { loaded with agenda := [.engine, .reset] } = .engine ∧ loaded.status ≠ .busy := by decide

/-- V5 (a): the child 2 with `LTLEN = 2`. -/
theorem witness_LinkBeyondTableFaultsNext :
    ∃ s : State, nextMove s = .engine ∧ s.status = .busy ∧ s.prod.toNat < s.xsz.toNat ∧ s.node.toNat < s.ltlen.toNat ∧
      0 < entryAt s s.node.toNat ∧ s.wordi.toNat < s.hxsz.toNat ∧
      s.ltlen.toNat ≤ childOf (entryAt s s.node.toNat).toNat (bitAt s (bitsConsumed s)) ∧
      ∃ t, step s = .next t ∧ s.ltlen.toNat ≤ t.node.toNat ∧ nextMove t = .engine :=
  ⟨{ running with ltlen := 2, agenda := [.engine, .engine, .reset] }, by decide, by decide, by decide, by decide,
    by decide, by decide, by decide, _, rfl, by decide, rfl⟩

theorem witness_StartBeginsDecode :
    loaded.status ≠ .busy ∧ (stopped .fault .outOfBits running).status ≠ .busy ∧
    (stopped .done .none running).status ≠ .busy ∧ 1 % 2 = 1 ∧ 4294967295 % 2 = 1 := by decide

theorem witness_StartWhileBusyIgnored : running.status = .busy := by decide

/-- The least and the greatest data, and the numbers 2, 3, 4 idle; 1, 5 and 15 at the ends of the dropped ranges. -/
theorem witness_RegWriteFollowsMap :
    0 < 2 ^ loaded.params.regW ∧ 4294967295 < 2 ^ loaded.params.regW ∧ 4294967295 % 2 = 1 ∧ 4294967294 % 2 = 0 ∧
    (2 : RegNo) ≠ 0 ∧ running.status = .busy ∧ loaded.status ≠ .busy ∧ 5 ≤ (5 : RegNo).toNat ∧ 5 ≤ (15 : RegNo).toNat := by
  decide

/-- Each clause of the read map is met by its number, and no number by two. -/
theorem witness_RegReadReturnsMap :
    ∀ n : RegNo, ((List.range 9).filter (fun k => n.toNat == k)).length + (if 9 ≤ n.toNat then 1 else 0) = 1 := by decide

theorem inv_running : Inv running :=
  ⟨⟨by decide, by decide, by decide⟩, by decide, fun _ => ⟨by decide, by decide, by decide, by decide⟩⟩

theorem inv_ending : Inv ending :=
  ⟨⟨by decide, by decide, by decide⟩, by decide, fun _ => ⟨by decide, by decide, by decide, by decide⟩⟩

/-- A link that finds the stream exhausted. -/
def dry : State := { running with hxsz := 0, stream := [] }

theorem inv_dry : Inv dry :=
  ⟨⟨by decide, by decide, by decide⟩, by decide, fun _ => ⟨by decide, by decide, by decide, by decide⟩⟩

/-- A fetch that finds the table empty. -/
def offTable : State := { running with ltlen := 0 }

theorem inv_offTable : Inv offTable :=
  ⟨⟨by decide, by decide, by decide⟩, by decide, fun _ => ⟨by decide, by decide, by decide, by decide⟩⟩

theorem inv_fault : Inv (stopped .fault .malformedTree offTable) :=
  ⟨⟨by decide, by decide, by decide⟩, by decide, fun h => absurd h (by decide)⟩

theorem witness_StatusReadsLegalValue : Inv running ∧ Inv (stopped .fault .malformedTree offTable) := ⟨inv_running, inv_fault⟩

theorem witness_OperandWriteReadsBack :
    loaded.status ≠ .busy ∧ ((4 : RegNo) = 2 ∨ (4 : RegNo) = 3 ∨ (4 : RegNo) = 4) ∧ 4294967295 < 2 ^ loaded.params.regW := by
  decide

theorem witness_AccessStepRunsDecodedOperation :
    ({ loaded with agenda := [.access (.write 0 3), .engine] } : State).agenda = .access (.write 0 3) :: [.engine] ∧
    decodeAccess loaded.params (.write 0 3) = .ok .start := ⟨rfl, rfl⟩

/-- The greatest indices and the least and greatest values. -/
theorem witness_PlatformWriteReadsBack :
    4294967295 < 2 ^ loaded.params.widxW ∧
    (2147483647 < 2 ^ loaded.params.nodeW ∧ entryFits loaded.params (-2147483648) = true ∧
      entryFits loaded.params 2147483647 = true) ∧
    (4294967295 < 2 ^ loaded.params.cntW ∧ 4294967295 < 2 ^ loaded.params.outW) := by decide

/-- The current word and a live entry, during a decode, and an output element. -/
theorem witness_PlatformWrite_agendas :
    (∃ s : State, s.status = .busy ∧ s.agenda = .placeStream 0 0xFFFF :: [] ∧ 0 < s.hxsz.toNat) ∧
    (∃ s : State, s.status = .busy ∧ s.agenda = .placeLink 2 (-1) :: [] ∧ 2 < s.ltlen.toNat) ∧
    (∃ s : State, s.status = .busy ∧ s.agenda = .placeOut 0 4294967295 :: []) :=
  ⟨⟨{ running with agenda := [.placeStream 0 0xFFFF] }, by decide⟩,
    ⟨{ running with agenda := [.placeLink 2 (-1)] }, by decide⟩,
    ⟨{ running with agenda := [.placeOut 0 4294967295] }, by decide⟩⟩

theorem witness_RewrittenEntryRunsNext :
    ∃ s : State, s.agenda = .placeLink s.node.toNat (-1) :: [.engine, .reset] ∧ entryFits s.params (-1) = true ∧ s.status = .busy ∧
      s.prod.toNat < s.xsz.toNat ∧ s.node.toNat < s.ltlen.toNat ∧
      ∃ t, step s = .next t ∧ nextMove t = .engine :=
  ⟨{ running with agenda := [.placeLink 0 (-1), .engine, .reset] }, by decide, by decide, rfl, by decide, by decide, _, rfl,
    rfl⟩

/-- A step in which a word becomes stale; a second write to it; and the wrap that ends it. -/
theorem witness_StaleWordOnlyByLiveWrite :
    (∃ s t : State, step s = .next t ∧ s.stale = [] ∧ t.stale = [0x8000]) ∧
    (∃ s t : State, step s = .next t ∧ s.stale = [0x1111] ∧ t.stale = [0x1111, 0x8000]) ∧
    (∃ s t : State, step s = .next t ∧ s.stale = [0x1111] ∧ t.stale = []) :=
  ⟨⟨{ running with agenda := [.placeStream 0 0x1234] }, _, rfl, rfl, rfl⟩,
    ⟨{ running with stale := [0x1111], agenda := [.placeStream 0 0x1234] }, _, rfl, rfl, rfl⟩,
    ⟨{ busyAt 3 6 0 0 1 0 0 with stale := [0x1111] }, _, rfl, rfl, rfl⟩⟩

/-- The wrap into a new word, and a `START` after a decode that left a stale word. -/
theorem witness_NewWordIsNeverStale :
    (∃ s t : State, step s = .next t ∧ t.status = .busy ∧ t.wordi.toNat ≠ s.wordi.toNat ∧ s.stale ≠ []) ∧
    (∃ s t : State, step s = .next t ∧ t.status = .busy ∧ s.status ≠ .busy ∧ s.stale ≠ []) :=
  ⟨⟨{ busyAt 3 6 0 0 1 0 0 with stale := [0x1111] }, _, rfl, rfl, nofun, nofun⟩,
    ⟨{ loaded with stale := [0x1111], agenda := [.access (.write 0 1)] }, _, rfl, rfl, nofun, nofun⟩⟩

/-- The last bit of a word is read from a stale one, and the run with a stale word ends there. -/
theorem witness_StaleWordLastsSixteenBits :
    ∃ s t : State, after 1 s = .next t ∧ (∀ i u, i < 1 → after i s = .next u → u.stale ≠ []) ∧ t.draws = s.draws + 1 ∧
      t.stale = [] :=
  ⟨{ busyAt 3 6 0 0 1 0 0 with stale := [0x1111] }, _, rfl,
    fun i u hi hu => by
      have h0 : i = 0 := by omega
      subst h0
      cases hu
      nofun, rfl, rfl⟩

theorem witness_FaultEntryFreezesState :
    (∃ t, step dry = .next t ∧ dry.status ≠ .fault ∧ t.status = .fault ∧ t.cause = .outOfBits ∧ nextMove t = .engine) ∧
    (∃ t, step offTable = .next t ∧ offTable.status ≠ .fault ∧ t.status = .fault ∧ t.cause = .malformedTree ∧
      nextMove t = .engine) :=
  ⟨⟨_, rfl, nofun, rfl, rfl, rfl⟩, ⟨_, rfl, nofun, rfl, rfl, rfl⟩⟩

/-- The engine's turn, a reset and a `START`, each after a fault. -/
theorem witness_OnlyStartOrResetLeavesFault :
    (∃ s t : State, step s = .next t ∧ s.status = .fault ∧ nextMove s = .engine) ∧
    (∃ s t : State, step s = .next t ∧ s.status = .fault ∧ nextMove s = .reset) ∧
    (∃ s t : State, step s = .next t ∧ s.status = .fault ∧ nextMove s = .access (.write 0 1)) :=
  ⟨⟨stopped .fault .outOfBits dry, _, rfl, rfl, rfl⟩,
    ⟨{ stopped .fault .outOfBits dry with agenda := [.reset] }, _, rfl, rfl, rfl⟩,
    ⟨{ stopped .fault .outOfBits dry with agenda := [.access (.write 0 1)] }, _, rfl, rfl, rfl⟩⟩

theorem witness_OutOfBitsOnlyFromLink :
    ∃ t, Inv dry ∧ dry.status = .busy ∧ exec (.link 2) dry = .next t ∧ t.cause = .outOfBits :=
  ⟨_, inv_dry, rfl, rfl, rfl⟩

theorem witness_MalformedTreeOnlyFromTableRead :
    offTable.ltlen.toNat ≤ offTable.node.toNat ∧
    (∃ t, exec .fetch offTable = .next t ∧ offTable.cause ≠ .malformedTree ∧ t.cause = .malformedTree) ∧
    (∃ t, exec .trail offTable = .next t ∧ offTable.cause ≠ .malformedTree ∧ t.cause = .malformedTree) ∧
    (∃ t, exec .finish { offTable with prod := 1 } = .next t ∧ offTable.cause ≠ .malformedTree ∧
      t.cause = .malformedTree) :=
  ⟨by decide, ⟨_, rfl, nofun, rfl⟩, ⟨_, rfl, nofun, rfl⟩, ⟨_, rfl, nofun, rfl⟩⟩

theorem witness_DecodeEndsOnlyByFinishFaultOrReset :
    (∃ t, step ending = .next t ∧ ending.status = .busy ∧ t.status ≠ .busy) ∧
    (∃ t, step dry = .next t ∧ dry.status = .busy ∧ t.status ≠ .busy) ∧
    (∃ t, step { running with agenda := [.reset] } = .next t ∧ running.status = .busy ∧ t.status ≠ .busy) :=
  ⟨⟨_, rfl, rfl, nofun⟩, ⟨_, rfl, rfl, nofun⟩, ⟨_, rfl, rfl, nofun⟩⟩

theorem witness_DecodeEndsWithConsistentRegisters :
    (∃ t, Inv ending ∧ ending.status = .busy ∧ step ending = .next t ∧ t.status = .done) ∧
    (∃ t, Inv dry ∧ dry.status = .busy ∧ step dry = .next t ∧ t.cause = .outOfBits) ∧
    (∃ t, Inv offTable ∧ offTable.status = .busy ∧ step offTable = .next t ∧
      t.cause = .malformedTree) ∧
    (∃ t, Inv { running with agenda := [.reset] } ∧ running.status = .busy ∧
      step { running with agenda := [.reset] } = .next t ∧ t.status = .idle) :=
  ⟨⟨_, inv_ending, rfl, rfl, rfl⟩, ⟨_, inv_dry, rfl, rfl, rfl⟩, ⟨_, inv_offTable, rfl, rfl, rfl⟩,
    ⟨_, ⟨inv_running.memories, inv_running.cause_iff,
      fun _ => ⟨by decide, by decide, by decide, by decide⟩⟩, rfl, rfl, rfl⟩⟩

theorem witness_ResetEventRestoresRegisters :
    ({ running with agenda := [.reset, .engine] } : State).agenda = .reset :: [.engine] ∧
    ({ running with agenda := [.reset] } : State).agenda = .reset :: [] := by decide

theorem witness_ControlTransfersAreExact :
    (∃ t, (Instr.link 2).wf running.params = true ∧ exec (.link 2) running = .next t) ∧
    (∃ t, (Instr.leafNeg 7).wf running.params = true ∧ exec (.leafNeg 7) running = .next t) ∧
    (∃ t, Instr.start.wf loaded.params = true ∧ exec .start loaded = .next t) :=
  ⟨⟨_, by decide, rfl⟩, ⟨_, by decide, rfl⟩, ⟨_, by decide, rfl⟩⟩

/-- A host write of `XSZ` during a decode. -/
theorem witness_OperandsStableWhileBusy :
    ∃ s t : State, step s = .next t ∧ s.status = .busy ∧ nextMove s ≠ .reset :=
  ⟨{ running with agenda := [.access (.write 2 99)] }, _, rfl, rfl, nofun⟩

/-- A `START` changes no space. -/
theorem witness_InputsOnlyChangedByPlatform :
    ∃ s t : State, step s = .next t ∧ (∀ a w, nextMove s ≠ .placeStream a w) ∧ (∀ a e, nextMove s ≠ .placeLink a e) ∧
      (∀ a v, nextMove s ≠ .placeOut a v) ∧ nextMove s ≠ .engine :=
  ⟨{ loaded with agenda := [.access (.write 0 1)] }, _, rfl, nofun, nofun, nofun, nofun⟩

/-- A step with a link, and one with a leaf. -/
theorem witness_OutputGrowsInOrder :
    (∃ t, nextMove runningOn = .engine ∧ runningOn.status = .busy ∧ step runningOn = .next t ∧ t.prod.toNat = 0) ∧
    (∃ t, nextMove (startDecode rootLeaf) = .engine ∧ (startDecode rootLeaf).status = .busy ∧
      step (startDecode rootLeaf) = .next t ∧ t.prod.toNat = 1) :=
  ⟨⟨_, rfl, rfl, rfl, rfl⟩, ⟨_, rfl, rfl, rfl, rfl⟩⟩

theorem witness_EngineAccessesStayInExtents :
    ∃ t, nextMove runningOn = .engine ∧ runningOn.status = .busy ∧ step runningOn = .next t ∧
      t.ports = [.linkRead 0 2, .streamRead 0 0x8000] := ⟨_, rfl, rfl, rfl, rfl⟩

theorem witness_StepKeepsInvariant : ∃ t, Inv running ∧ step running = .next t := ⟨_, inv_running, rfl⟩

/-- An engine step, and a read of `STATUS` during the decode; 19 steps are left from S1's `START` on. -/
theorem witness_StepsLeftFall :
    (∃ t, step runningOn = .next t ∧ runningOn.status = .busy ∧ nextMove runningOn = .engine ∧
      stepsLeft runningOn = 19 ∧ stepsLeft t = 18) ∧
    (∃ s t : State, step s = .next t ∧ s.status = .busy ∧ nextMove s = .access (.read 1) ∧ stepsLeft s = stepsLeft t) ∧
    loaded.status ≠ .busy :=
  ⟨⟨_, rfl, rfl, rfl, by decide, by decide⟩, ⟨{ running with agenda := [.access (.read 1)] }, _, rfl, rfl, rfl, rfl⟩,
    nofun⟩

/-- The host polls `STATUS`, and then the engine ends a decode with `XSZ = 0` and `HXSZ = 0`: the bound 1 is reached. -/
theorem witness_DecodeTakesBoundedEngineSteps :
    ∃ s t : State, s.status ≠ .busy ∧ after 2 (startDecode s) = .next t ∧
      (∀ i u, i < 2 → after i (startDecode s) = .next u → u.status = .busy) ∧
      engineMoves 2 s.agenda = 16 * s.hxsz.toNat + s.xsz.toNat + 1 :=
  ⟨{ loaded with xsz := 0, hxsz := 0, agenda := [.access (.read 1), .engine, .reset] }, _, nofun, rfl,
    fun i u hi hu => by
      have h0 : i = 0 ∨ i = 1 := by omega
      rcases h0 with rfl | rfl <;> cases hu <;> rfl, by decide⟩

theorem witness_DecodeEndsWithinBound : loaded.agenda = [] ∧ loaded.status ≠ .busy := by decide

theorem witness_RootLeafDecodesToCopies :
    rootLeaf.agenda = [] ∧ rootLeaf.status ≠ .busy ∧ 0 < rootLeaf.ltlen.toNat ∧ entryAt rootLeaf 0 ≤ 0 := by decide

theorem wellFormed_loaded : WellFormedTree loaded 0 :=
  .link (by decide) (by decide) (.leaf (by decide) (by decide)) (.leaf (by decide) (by decide))

theorem witness_WellFormedTableNeverMalformed :
    ∃ t, loaded.agenda = [] ∧ loaded.status ≠ .busy ∧ WellFormedTree loaded 0 ∧ after 1 (startDecode loaded) = .next t :=
  ⟨_, rfl, nofun, wellFormed_loaded, rfl⟩

/-- Symbol 7 has the codeword `1`, symbol 5 the codeword `0`. -/
theorem codeword_seven : Codeword oneSymbol 0 0 7 1 :=
  .link (by decide) (by decide) (by decide) (.leaf (n := 2) (by decide) (by decide))

theorem witness_CodewordEmitsItsSymbol :
    running.agenda = [] ∧ running.status = .busy ∧ running.prod.toNat < running.xsz.toNat ∧ running.node.toNat = 0 ∧
    running.stale = [] ∧ Codeword running 0 (bitsConsumed running) 7 1 :=
  ⟨rfl, rfl, by decide, rfl, rfl, .link (by decide) (by decide) (by decide) (.leaf (n := 2) (by decide) (by decide))⟩

theorem witness_MessageIsDecoded :
    oneSymbol.agenda = [] ∧ oneSymbol.status ≠ .busy ∧ [(7 : Int)].length = oneSymbol.xsz.toNat ∧
    Message oneSymbol 0 [7] 1 := ⟨rfl, nofun, rfl, .cons codeword_seven .nil⟩

/-- Three steps: `LINK`, `LEAF`, `FINISH`. -/
theorem witness_DoneMeansMessageDecoded :
    ∃ t, oneSymbol.agenda = [] ∧ oneSymbol.status ≠ .busy ∧ after 3 (startDecode oneSymbol) = .next t ∧ Succeeded t :=
  ⟨_, rfl, nofun, rfl, rfl⟩

theorem sameInputs_again : SameInputs oneSymbol oneSymbolAgain where
  params := rfl
  xsz := rfl
  hxsz := rfl
  ltlen := rfl
  stream := fun _ _ => rfl
  link := fun a ha => by
    have h : a = 0 ∨ a = 1 ∨ a = 2 := by
      have : oneSymbol.ltlen.toNat = 3 := by decide
      omega
    rcases h with rfl | rfl | rfl <;> decide

theorem witness_DecodeDependsOnInputsOnly :
    ∃ t t', oneSymbol.agenda = [] ∧ oneSymbolAgain.agenda = [] ∧ oneSymbol.status ≠ .busy ∧
      oneSymbolAgain.status ≠ .busy ∧ SameInputs oneSymbol oneSymbolAgain ∧
      after 3 (startDecode oneSymbol) = .next t ∧ after 3 (startDecode oneSymbolAgain) = .next t' :=
  ⟨_, _, rfl, rfl, nofun, nofun, sameInputs_again, rfl, rfl⟩

end Sys2Proof.Tests
end

section
/-! PROOFS. The `STATUS` register (10_state.md R20): the value a read shows, the pairs of `STATE` and `CAUSE` that the
invariant leaves, and the dropped write. -/

namespace Sys2Proof.Machine

/-- A register read is the model's `onPort` with the register's value (42_host_commands.md R96). -/
theorem exec_regRead (n : RegNo) (s : State) :
    exec (.regRead n) s = .next (onPort s (.regData n (readReg n s).toNat)) := rfl

/-- A register write is the model's `writeReg` (42_host_commands.md R95). -/
theorem exec_regWrite (n : RegNo) (d : Nat) (s : State) : exec (.regWrite n d) s = .next (writeReg n d s) := rfl

/-- The two fields of `STATUS` as one number: `CAUSE` above the two bits of `STATE`. -/
theorem toNat_statusWord (s : State) :
    (statusWord s).toNat = 4 * (causeCode s.cause).toNat + (statusCode s.status).toNat := by
  simp only [statusWord, BitVec.toNat_append]
  rw [← Nat.shiftLeft_add_eq_or_of_lt (statusCode s.status).isLt, Nat.shiftLeft_eq]
  omega

/-- The register port holds the four bits of `STATUS` (00_scope.md R4: `REG_W >= 4`), so a read shows both fields whole. -/
theorem toNat_readReg_status (s : State) :
    (readReg 1 s).toNat = 4 * (causeCode s.cause).toNat + (statusCode s.status).toNat := by
  have hw : 4 ≤ s.params.regW := by simp only [Params.regW]; omega
  have hr : readReg 1 s = portData s.params (statusWord s) := rfl
  rw [hr, toNat_portData s.params (statusWord s) hw, toNat_statusWord]

/-- A write of `STATUS` is dropped (R20), while a decode runs as at any other time. -/
theorem writeReg_status (d : Nat) (s : State) : writeReg 1 d s = s := by
  rcases writeReg_cases 1 d s with ⟨h, -⟩ | h | ⟨-, h, -⟩ | ⟨-, h, -⟩ | ⟨-, h, -⟩
  · exact absurd h (by decide)
  · exact h
  all_goals exact absurd h (by decide)

/-- R16 and R17 under the invariant: a cause stands exactly in `FAULT`, which leaves five pairs of `STATE` and `CAUSE`. -/
theorem Inv.status_cause_cases {s : State} (h : Inv s) :
    (s.status = .idle ∧ s.cause = .none) ∨ (s.status = .busy ∧ s.cause = .none) ∨
    (s.status = .done ∧ s.cause = .none) ∨ (s.status = .fault ∧ s.cause = .outOfBits) ∨
    (s.status = .fault ∧ s.cause = .malformedTree) := by
  have hnone (hf : s.status ≠ .fault) : s.cause = .none := by_contra fun hc => hf (h.cause_iff.mp hc)
  cases hs : s.status with
  | idle => exact .inl ⟨rfl, hnone (by simp [hs])⟩
  | busy => exact .inr (.inl ⟨rfl, hnone (by simp [hs])⟩)
  | done => exact .inr (.inr (.inl ⟨rfl, hnone (by simp [hs])⟩))
  | fault =>
    have hsome : s.cause ≠ .none := h.cause_iff.mpr hs
    cases hc : s.cause with
    | none => exact absurd hc hsome
    | outOfBits => exact .inr (.inr (.inr (.inl ⟨rfl, rfl⟩)))
    | malformedTree => exact .inr (.inr (.inr (.inr ⟨rfl, rfl⟩)))

/-- Settles O24: under the invariant only five pairs of `STATE` and `CAUSE` stand, and a read shows their codes. -/
theorem statusReadsLegalValue : Obligations.StatusReadsLegalValue := by
  intro s hinv
  refine ⟨⟨_, _, exec_regRead 1 s, rfl, ?_⟩, fun d => by rw [exec_regWrite, writeReg_status]⟩
  rw [toNat_readReg_status]
  rcases hinv.status_cause_cases with ⟨hs, hc⟩ | ⟨hs, hc⟩ | ⟨hs, hc⟩ | ⟨hs, hc⟩ | ⟨hs, hc⟩ <;> rw [hs, hc] <;> decide

end Sys2Proof.Machine
end

section
/-! PROOFS. The class decode of a link-table entry (30_encoding.md R51): the decoder's answer for each sign. -/

namespace Sys2Proof

/-- The class `LEAF` of a negative entry (R51, R53). -/
theorem decodeEntry_of_neg {w : Nat} {e : BitVec w} (h : e.toInt < 0) : decodeEntry e = .leafNeg (negN e).toNat := by
  have hm : e.msb = true := by simpa [BitVec.msb_eq_toInt] using h
  have h0 : e ≠ 0 := by
    rintro rfl
    simp at h
  rw [decodeEntry, if_neg h0, if_pos hm]

/-- The class `LEAF` of the zero entry (R51, R53): zero is spelled by the zero pattern alone. -/
theorem decodeEntry_of_toInt_eq_zero {w : Nat} {e : BitVec w} (h : e.toInt = 0) : decodeEntry e = .leafZero := by
  have h0 : e = 0 := BitVec.eq_of_toInt_eq (by simpa using h)
  rw [decodeEntry, if_pos h0]

/-- The class test of R51: only a positive entry decodes to a `LINK`. -/
theorem decodeEntry_eq_link_iff {w : Nat} (e : BitVec w) : (∃ m, decodeEntry e = .link m) ↔ 0 < e.toInt := by
  rcases lt_trichotomy e.toInt 0 with hneg | hzero | hpos
  · simp [decodeEntry_of_neg hneg, hneg.le]
  · simp [decodeEntry_of_toInt_eq_zero hzero, hzero]
  · simp [decodeEntry_of_pos hpos, hpos]

/-- Settles O2: one lemma of the decoder for each sign, and the class test in bits by `toInt_pos_iff`. -/
theorem entryClassAndOperand : Obligations.EntryClassAndOperand := by
  intro w e
  refine ⟨fun hpos => ?_, fun hneg => ?_, decodeEntry_of_toInt_eq_zero, ?_⟩
  · have hu : e.toInt = e.toNat := toInt_eq_toNat_of_pos hpos
    exact ⟨_, decodeEntry_of_pos hpos, Int.toNat_of_nonneg hpos.le, by rw [hu, Int.toNat_natCast]⟩
  · exact ⟨_, decodeEntry_of_neg hneg, negN_toInt e hneg.le, rfl⟩
  · rw [decodeEntry_eq_link_iff, toInt_pos_iff, and_comm]

end Sys2Proof
end

section
/-! PROOFS. The frames that the operations without an encoding are put together from, and how two of them compose. -/

namespace Sys2Proof.Machine

theorem Same.trans {s t u : State} {p : Part} (h : Same s t p) (h' : Same t u p) : Same s u p := by
  cases p with
  | stream | link | out => exact fun a => (h' a).trans (h a)
  | _ => exact Eq.trans h' h

/-- Two updates in a row change at most what either of them changes. -/
theorem ChangesOnly.trans {ps qs rs : List Part} {s t u : State} (h : ChangesOnly ps s t) (h' : ChangesOnly qs t u)
    (hps : ps ⊆ rs) (hqs : qs ⊆ rs) : ChangesOnly rs s u :=
  fun p hp => (h p fun hm => hp (hps hm)).trans (h' p fun hm => hp (hqs hm))

theorem beginStep_frame (s : State) : ChangesOnly [.agenda, .ports] s (beginStep s) := by
  intro p hp
  cases p <;> simp_all [Same]

theorem onLinkPort_frame (s : State) (e : BitVec s.params.linkW) : ChangesOnly [.ports] s (onLinkPort s e) := by
  intro p hp
  cases p <;> simp_all [Same]

theorem storeSymbol_frame (s : State) (v : BitVec s.params.outW) :
    ChangesOnly [.prod, .out, .ports] s (storeSymbol s v) := by
  intro p hp
  cases p <;> simp_all [Same]

/-- R116: fault entry discards every other write of the step. -/
theorem raise_frame (x : Exc) (s : State) : ChangesOnly [.status, .cause] s (raise x s) := by
  intro p hp
  cases p <;> simp_all [Same]

end Sys2Proof.Machine
end

section
/-! PROOFS. The sequencing of a decode (40_sequencing.md): the loop exit, `FETCH` and `TRAIL`. -/

namespace Sys2Proof.Machine

/-- The condition of `TRAIL` as an equation of naturals: nothing wraps at `XSZ = 0` (R69, D20). -/
theorem trailDue_iff (s : State) : trailDue s = true ↔ s.prod.toNat + 1 = s.xsz.toNat := by
  simp only [trailDue, decide_eq_true_eq]
  omega

/-- R70: what the dispatch has found when it enters `FINISH` excludes the condition of `TRAIL`. -/
theorem trailDue_eq_false {s : State} (h : s.xsz.toNat ≤ s.prod.toNat) : trailDue s = false := by
  rw [Bool.eq_false_iff, ne_eq, trailDue_iff]
  omega

/-- An engine step with every symbol produced is the loop exit (R65, R66): the other outcomes ask for one more symbol. -/
theorem engineStep_exit {s : State} (h : s.xsz.toNat ≤ s.prod.toNat) :
    ∃ t, engineStep s = .next t ∧ t.status = .done ∧ t.ports = s.ports ∧ ChangesOnly [.status] s t := by
  obtain ⟨t, hstep, hout, -⟩ := engineStep_outcome s
  cases hout with
  | exit _ status ports frame => exact ⟨t, hstep, status, ports, frame⟩
  | offTable more | leaf more | link more | dry more => exact absurd more (Nat.not_lt.mpr h)

/-- Everything `FETCH` can do (R67). -/
theorem exec_fetch_cases (s : State) :
    (s.node.toNat < s.ltlen.toNat ∧ exec .fetch s = .next (onLinkPort s (entryHere s))) ∨
    (s.ltlen.toNat ≤ s.node.toNat ∧ exec .fetch s = .next (raise .malformedTree s)) := by
  show (_ ∧ execFetch s = _) ∨ (_ ∧ execFetch s = _)
  rcases fetchEntry_cases s with ⟨h, hf⟩ | ⟨h, hf⟩
  · exact .inl ⟨h, by simp only [execFetch, hf]⟩
  · exact .inr ⟨h, by simp only [execFetch, hf]⟩

/-- Everything `TRAIL` can do (R69). -/
theorem exec_trail_cases (s : State) :
    (s.node.toNat < s.ltlen.toNat ∧
      exec .trail s = .next (storeSymbol (onLinkPort s (entryHere s)) (negN (entryHere s)))) ∨
    (s.ltlen.toNat ≤ s.node.toNat ∧ exec .trail s = .next (raise .malformedTree s)) := by
  show (_ ∧ execTrail s = _) ∨ (_ ∧ execTrail s = _)
  rcases trailing_cases s with ⟨h, ht⟩ | ⟨h, ht⟩
  · exact .inl ⟨h, by simp only [execTrail, ht]⟩
  · exact .inr ⟨h, by simp only [execTrail, ht]⟩

/-- Settles O14: `PROD >= XSZ` excludes the condition of `TRAIL`, and the engine step that finds it is the loop exit. -/
theorem loopExitNeverTrails : Obligations.LoopExitNeverTrails := by
  intro s hnext hbusy hexit
  refine ⟨trailDue_eq_false hexit, ?_⟩
  obtain ⟨t, hstep, hdone, hports, hframe⟩ := engineStep_exit (s := beginStep s) hexit
  have hstep' : step s = .next t := (step_engine_busy hnext hbusy).trans hstep
  exact ⟨t, hstep', hdone, hports, step_agenda hstep',
    (beginStep_frame s).trans hframe (by decide) (by decide)⟩

/-- Settles O11: the two cases of `FETCH`; a table of `2^NODE_W` entries holds every node. -/
theorem fetchReturnsOrRaises : Obligations.FetchReturnsOrRaises := by
  intro s
  refine ⟨fun hin => ?_, fun hoff => ?_, fun hfull => s.node.isLt.trans_le hfull⟩
  · rcases exec_fetch_cases s with ⟨-, hx⟩ | ⟨hoff, -⟩
    · exact ⟨_, hx, onLinkPort_ports s _, onLinkPort_frame s _⟩
    · exact absurd hin (Nat.not_lt.mpr hoff)
  · rcases exec_fetch_cases s with ⟨hin, -⟩ | ⟨-, hx⟩
    · exact absurd hin (Nat.not_lt.mpr hoff)
    · exact ⟨_, hx, rfl, rfl, raise_frame _ s⟩

/-- The whole effect of `TRAIL` with `NODE` in the table and a symbol outstanding (R69): it stores the negation of the
entry, whatever its class. -/
theorem exec_trail_emits {s : State} (hmore : s.prod.toNat < s.xsz.toNat) (hin : s.node.toNat < s.ltlen.toNat) :
    ∃ t, exec .trail s = .next t ∧
      (∀ a, outAt t a = if a = s.prod.toNat then (negN (entryHere s)).toNat else outAt s a) ∧
      t.prod.toNat = s.prod.toNat + 1 ∧
      t.ports = s.ports ++
        [.linkRead s.node.toNat (entryHere s).toNat, .outWrite s.prod.toNat (negN (entryHere s)).toNat] ∧
      ChangesOnly [.prod, .out, .ports] s t := by
  rcases exec_trail_cases s with ⟨-, hx⟩ | ⟨hoff, -⟩
  · exact ⟨_, hx, outAt_storeSymbol (onLinkPort s (entryHere s)) _,
      storeSymbol_prod (onLinkPort s (entryHere s)) _ hmore, List.append_assoc _ _ _,
      (onLinkPort_frame s _).trans (storeSymbol_frame (onLinkPort s (entryHere s)) _) (by decide) (by decide)⟩
  · exact absurd hin (Nat.not_lt.mpr hoff)

/-- Settles O13: the condition of `TRAIL` over the integers, and the two cases of `TRAIL`. -/
theorem trailEmitsNegation : Obligations.TrailEmitsNegation := by
  intro s
  refine ⟨trailDue_iff s, fun hdue hin => ?_, fun _ hoff => ?_⟩
  · obtain ⟨t, hx, hout, hprod, hports, hframe⟩ := exec_trail_emits (by omega : s.prod.toNat < s.xsz.toNat) hin
    have hhere : outAt t s.prod.toNat = (negN (entryHere s)).toNat := (hout _).trans (if_pos rfl)
    refine ⟨t, hx, hhere.trans (negN_toNat _), hprod, ?_, fun b hb => (hout b).trans (if_neg hb), hframe⟩
    rw [hports, hhere]
  · rcases exec_trail_cases s with ⟨hin, -⟩ | ⟨-, hx⟩
    · exact absurd hin (Nat.not_lt.mpr hoff)
    · exact ⟨_, hx, rfl, rfl, raise_frame _ s⟩

end Sys2Proof.Machine
end

section
/-! PROOFS. The `LEAF` entries (41_link_and_leaf.md R81): what emission leaves unchanged, and the row for every leaf
entry. -/

namespace Sys2Proof.Machine

/-- R81: beside the store of the symbol, emission writes `NODE` only. -/
theorem emitSymbol_frame (s : State) (v : BitVec s.params.outW) :
    ChangesOnly [.node, .prod, .out, .ports] s (emitSymbol s v) := by
  intro p hp
  cases p <;> simp_all [Same]

/-- Emission writes one element of `OUT`, the one at `PROD` (R81, R88). -/
theorem emitSymbol_outChangesOnlyAt (s : State) (v : BitVec s.params.outW) :
    OutChangesOnlyAt s.prod.toNat s (emitSymbol s v) :=
  fun b hb => (outAt_emitSymbol s v b).trans (if_neg hb)

/-- Settles O8: either class of leaf entry executes as the emission of its negation, and each part of the claim is a
fact about emission. -/
theorem leafEntryEmitsNegation : Obligations.LeafEntryEmitsNegation := by
  intro s e hleaf hmore
  have hexec : exec (decodeEntry e) s = .next (emitSymbol s (negN e)) := exec_leafEntry s e hleaf
  have hout : outAt (emitSymbol s (negN e)) s.prod.toNat = (negN e).toNat :=
    (outAt_emitSymbol s (negN e) _).trans (if_pos rfl)
  have hsymbol : (outAt (emitSymbol s (negN e)) s.prod.toNat : Int) = -e.toInt := by rw [hout, negN_toInt e hleaf]
  exact ⟨_, hexec, hsymbol, emitSymbol_prod s _ hmore, emitSymbol_node s _, emitSymbol_ports s _,
    emitSymbol_outChangesOnlyAt s _, emitSymbol_frame s _⟩

end Sys2Proof.Machine
end

section
/-! PROOFS. The host's commands (42_host_commands.md): the map of register writes and reads, `START` while a decode runs,
and the ways in which a running decode ends. -/

namespace Sys2Proof.Machine

/-! ### Writes (R95, R98) -/

/-- R98: the running decode goes on undisturbed. -/
theorem startDecode_of_busy {s : State} (hbusy : s.status = .busy) : startDecode s = s := by
  rcases startDecode_cases s with ⟨-, hx⟩ | ⟨hidle, -⟩
  · exact hx
  · exact absurd hbusy hidle

/-- Settles O21: `START` is `startDecode`, which keeps a busy state. -/
theorem startWhileBusyIgnored : Obligations.StartWhileBusyIgnored := fun _ hbusy =>
  congrArg Host.Outcome.next (startDecode_of_busy hbusy)

/-- While a decode runs no register write has an effect: an operand is dropped whole (R95), and a `START` does nothing
(R98). -/
theorem writeReg_of_busy {s : State} (n : RegNo) (d : Nat) (hbusy : s.status = .busy) : writeReg n d s = s := by
  rcases writeReg_cases n d s with ⟨-, -, hx⟩ | hx | ⟨hidle, -⟩ | ⟨hidle, -⟩ | ⟨hidle, -⟩
  · exact hx.trans (startDecode_of_busy hbusy)
  · exact hx
  all_goals exact absurd hbusy hidle

/-- The numbers whose writes drop at any time: `STATUS`, the counters and the reserved ones (R95). -/
theorem writeReg_of_readOnly {n : RegNo} (d : Nat) (s : State) (hn : n = 1 ∨ 5 ≤ n.toNat) : writeReg n d s = s := by
  rcases writeReg_cases n d s with ⟨rfl, -⟩ | hx | ⟨-, rfl, -⟩ | ⟨-, rfl, -⟩ | ⟨-, rfl, -⟩
  case inr.inl => exact hx
  all_goals exact absurd hn (by decide)

/-- `CTRL` takes bit 0 of the data only: it is `START` or nothing (R95). -/
theorem writeReg_ctrl (d : Nat) (s : State) : writeReg 0 d s = if d % 2 = 1 then startDecode s else s := by
  simp [writeReg]

theorem writeReg_xsz {s : State} (d : Nat) (hidle : s.status ≠ .busy) :
    writeReg 2 d s = { s with xsz := portField s.params s.params.cntW d } := if_neg hidle

theorem writeReg_hxsz {s : State} (d : Nat) (hidle : s.status ≠ .busy) :
    writeReg 3 d s = { s with hxsz := portField s.params s.params.widxW d } := if_neg hidle

theorem writeReg_ltlen {s : State} (d : Nat) (hidle : s.status ≠ .busy) :
    writeReg 4 d s = { s with ltlen := portField s.params s.params.linkW d } := if_neg hidle

/-- New operands change at most the operand registers, and of those only the ones that get another value. -/
theorem operands_update_frame {parts : List Part} {s : State} (x : BitVec s.params.cntW) (h : BitVec s.params.widxW)
    (l : BitVec s.params.linkW) (hxsz : .xsz ∈ parts ∨ x = s.xsz) (hhxsz : .hxsz ∈ parts ∨ h = s.hxsz)
    (hltlen : .ltlen ∈ parts ∨ l = s.ltlen) : ChangesOnly parts s { s with xsz := x, hxsz := h, ltlen := l } := by
  intro p hp
  cases p with
  | xsz => exact congrArg BitVec.toNat (hxsz.resolve_left hp)
  | hxsz => exact congrArg BitVec.toNat (hhxsz.resolve_left hp)
  | ltlen => exact congrArg BitVec.toNat (hltlen.resolve_left hp)
  | stream | link | out => exact fun _ => rfl
  | _ => rfl

/-- Settles O22: one fact about `writeReg` for each range of register numbers. -/
theorem regWriteFollowsMap : Obligations.RegWriteFollowsMap := by
  intro s n d hd
  simp only [exec_regWrite]
  refine ⟨?_, ?_, ?_, ?_, ?_, ?_, ?_⟩
  · rintro rfl hodd
    rw [writeReg_ctrl, if_pos hodd]
    rfl
  · rintro rfl heven
    rw [writeReg_ctrl, if_neg (by omega)]
  · intro _ hbusy
    rw [writeReg_of_busy n d hbusy]
  · rintro rfl hidle
    exact ⟨_, congrArg _ (writeReg_xsz d hidle), toNat_portField _ _ d hd,
      operands_update_frame _ s.hxsz s.ltlen (.inl (by decide)) (.inr rfl) (.inr rfl)⟩
  · rintro rfl hidle
    exact ⟨_, congrArg _ (writeReg_hxsz d hidle), toNat_portField _ _ d hd,
      operands_update_frame s.xsz _ s.ltlen (.inr rfl) (.inl (by decide)) (.inr rfl)⟩
  · rintro rfl hidle
    exact ⟨_, congrArg _ (writeReg_ltlen d hidle), toNat_portField _ _ d hd,
      operands_update_frame s.xsz s.hxsz _ (.inr rfl) (.inr rfl) (.inl (by decide))⟩
  · intro hn
    rw [writeReg_of_readOnly d s hn]

/-! ### Reads (R96) -/

/-- 00_scope.md R4, D10: the port is as wide as each of the registers that a read shows. -/
theorem widths_le_regW (p : Params) :
    p.linkW ≤ p.regW ∧ p.cntW ≤ p.regW ∧ p.widxW ≤ p.regW ∧ 4 ≤ p.regW ∧ p.nodeW ≤ p.regW := by
  simp only [Params.regW, Params.linkW, Params.nodeW]
  omega

/-- `CTRL` and the reserved numbers read as zero (R96). -/
theorem readReg_of_unmapped {n : RegNo} (s : State) (hn : n.toNat = 0 ∨ 9 ≤ n.toNat) : readReg n s = 0 := by
  have hne (k : RegNo) (hlow : 1 ≤ k.toNat) (hhigh : k.toNat ≤ 8) : n ≠ k := by
    rintro rfl
    omega
  simp [readReg, hne]

theorem onPort_frame (s : State) (ev : PortEvent) : ChangesOnly [.ports] s (onPort s ev) := by
  intro p hp
  cases p with
  | ports => exact absurd (by decide) hp
  | stream | link | out => exact fun _ => rfl
  | _ => rfl

/-- Settles O23: a read only adds to the record of the ports, and the port is wide enough for each register. -/
theorem regReadReturnsMap : Obligations.RegReadReturnsMap := by
  intro s n
  obtain ⟨hlink, hcnt, hwidx, hfour, hnode⟩ := widths_le_regW s.params
  have hread (k : RegNo) (hk : n.toNat = k.toNat) : (readReg n s).toNat = (readReg k s).toNat := by
    rw [BitVec.eq_of_toNat_eq hk]
  have hzero (hn : n.toNat = 0 ∨ 9 ≤ n.toNat) : (readReg n s).toNat = 0 := by
    rw [readReg_of_unmapped s hn]
    rfl
  refine ⟨_, _, exec_regRead n s, rfl, onPort_frame s _, fun h => hzero (.inl h),
    fun h => (hread 1 h).trans (toNat_readReg_status s), ?_, ?_, ?_, ?_, ?_, ?_, ?_, fun h => hzero (.inr h)⟩
  · exact fun h => (hread 2 h).trans (toNat_portData s.params s.xsz hcnt)
  · exact fun h => (hread 3 h).trans (toNat_portData s.params s.hxsz hwidx)
  · exact fun h => (hread 4 h).trans (toNat_portData s.params s.ltlen hlink)
  · exact fun h => (hread 5 h).trans (toNat_portData s.params s.prod hcnt)
  · exact fun h => (hread 6 h).trans (toNat_portData s.params s.node hnode)
  · exact fun h => (hread 7 h).trans (toNat_portData s.params s.wordi hwidx)
  · exact fun h => (hread 8 h).trans (toNat_portData s.params s.biti hfour)

/-! ### The ends of a decode (R99) -/

/-- With every symbol produced the engine's step is `FINISH` (R65). -/
theorem engineStep_eq_finish {s : State} (hexit : s.xsz.toNat ≤ s.prod.toNat) : engineStep s = exec .finish s := by
  have hgo : loopGoes s = false := decide_eq_false (Nat.not_lt.mpr hexit)
  simp only [engineStep, hgo, Bool.false_eq_true, if_false]

/-- An engine step of a running decode that leaves `BUSY` is the loop exit or a fault; a leaf and a link keep `STATE`. -/
theorem engineStep_leaves_busy {s t : State} (hstep : engineStep s = .next t) (hbusy : s.status = .busy)
    (hend : t.status ≠ .busy) :
    (s.xsz.toNat ≤ s.prod.toNat ∧ exec .finish s = .next t ∧ t.status = .done) ∨
    (s.prod.toNat < s.xsz.toNat ∧ t.status = .fault) := by
  obtain ⟨u, hu, hout, -⟩ := engineStep_outcome s
  obtain rfl : t = u := Host.Outcome.next.inj (hstep.symm.trans hu)
  cases hout with
  | exit hexit hdone => exact .inl ⟨hexit, (engineStep_eq_finish hexit).symm.trans hstep, hdone⟩
  | offTable hmore _ hfault | dry hmore _ _ _ hfault => exact .inr ⟨hmore, hfault⟩
  | leaf _ _ _ _ _ _ _ hframe | link _ _ _ _ _ _ _ _ _ _ _ hframe =>
    exact absurd (Eq.trans (hframe .status (by decide)) hbusy) hend

/-- Settles O36: of the moves only the engine's and the reset event can leave `BUSY`; a register access is dropped or only
read, and the platform writes memories. -/
theorem decodeEndsOnlyByFinishFaultOrReset : Obligations.DecodeEndsOnlyByFinishFaultOrReset := by
  intro s t hstep hbusy hend
  have hbusy' : (beginStep s).status = .busy := hbusy
  rcases perform_cases (show perform (nextMove s) (beginStep s) = .next t from hstep) with
    ⟨hm, -, hx⟩ | ⟨-, hidle, -⟩ | ⟨n, d, -, rfl⟩ | ⟨n, -, rfl⟩ | ⟨hm, rfl⟩ | ⟨a, w, -, -, rfl⟩ | ⟨a, e, -, -, rfl⟩ |
    ⟨a, v, -, -, rfl⟩
  · rcases engineStep_leaves_busy hx hbusy' hend with ⟨hexit, hfinish, hdone⟩ | ⟨hmore, hfault⟩
    · exact .inl ⟨hm, hexit, hfinish, hdone⟩
    · exact .inr (.inl ⟨hm, hmore, hfault⟩)
  · exact absurd hbusy' hidle
  · rw [writeReg_of_busy n d hbusy'] at hend
    exact absurd hbusy' hend
  · exact absurd hbusy hend
  · exact .inr (.inr ⟨hm, rfl⟩)
  all_goals exact absurd hbusy hend

end Sys2Proof.Machine
end

section
/-! PROOFS. Exceptions (60_exceptions.md): which moves change `STATE` and `CAUSE`, which operations raise which fault and
when, and the order of the tests of an engine step. -/

namespace Sys2Proof.Machine

/-! ### Moves that change `STATE` and `CAUSE` -/

/-- Of the register writes only `START` reaches `STATE` and `CAUSE` (R95, R97), and while a decode runs not even it (R98). -/
theorem writeReg_status_cause_cases (n : RegNo) (d : Nat) (s : State) :
    ((writeReg n d s).status = s.status ∧ (writeReg n d s).cause = s.cause) ∨
    (n = 0 ∧ d % 2 = 1 ∧ (writeReg n d s).status = .busy ∧ (writeReg n d s).cause = .none) := by
  rcases writeReg_cases n d s with ⟨hn, hd, hx⟩ | hx | ⟨-, -, hx⟩ | ⟨-, -, hx⟩ | ⟨-, -, hx⟩ <;> rw [hx]
  case inl =>
    rcases startDecode_cases s with ⟨-, hy⟩ | ⟨-, hy⟩ <;> rw [hy]
    · exact .inl ⟨rfl, rfl⟩
    · exact .inr ⟨hn, by simpa using hd, rfl, rfl⟩
  all_goals exact .inl ⟨rfl, rfl⟩

/-- What a move does to `STATE` and `CAUSE`, for proofs about faults: outside a running decode's engine step they change
by reset or `START` only. -/
theorem perform_status_cause_cases {m : Move} {s t : State} (h : perform m s = .next t) :
    (m = .engine ∧ s.status = .busy ∧ engineStep s = .next t) ∨
    (t.status = s.status ∧ t.cause = s.cause) ∨
    (m = .reset ∧ t.status = .idle ∧ t.cause = .none) ∨
    (∃ d, m = .access (.write 0 d) ∧ d % 2 = 1 ∧ t.status = .busy ∧ t.cause = .none) := by
  rcases perform_cases h with hx | ⟨-, -, rfl⟩ | ⟨n, d, rfl, rfl⟩ | ⟨n, -, rfl⟩ | ⟨hm, rfl⟩ | ⟨a, w, -, -, rfl⟩ |
    ⟨a, e, -, -, rfl⟩ | ⟨a, v, -, -, rfl⟩
  · exact .inl hx
  · exact .inr (.inl ⟨rfl, rfl⟩)
  · rcases writeReg_status_cause_cases n d s with hkeep | ⟨rfl, hodd, hbegun⟩
    · exact .inr (.inl hkeep)
    · exact .inr (.inr (.inr ⟨d, rfl, hodd, hbegun⟩))
  · exact .inr (.inl ⟨rfl, rfl⟩)
  · exact .inr (.inr (.inl ⟨hm, rfl, rfl⟩))
  all_goals exact .inr (.inl ⟨rfl, rfl⟩)

/-- Settles O33: the engine has no step in `FAULT`; of the other moves only reset and `START` touch `STATE` and `CAUSE`. -/
theorem onlyStartOrResetLeavesFault : Obligations.OnlyStartOrResetLeavesFault := by
  intro s t hstep hfault
  rcases perform_status_cause_cases (show perform (nextMove s) (beginStep s) = .next t from hstep) with
    ⟨-, hbusy, -⟩ | ⟨hstatus, hcause⟩ | hreset | hstart
  · have hbusy' : s.status = .busy := hbusy
    simp [hfault] at hbusy'
  · exact .inl ⟨hstatus.trans hfault, hcause⟩
  · exact .inr (.inl hreset)
  · exact .inr (.inr hstart)

/-! ### The engine's faults -/

/-- R116: an engine step that enters `FAULT` failed the node test or, behind it, found no bit for a link; it writes `STATE`
and `CAUSE` only. -/
theorem engineStep_enters_fault {s t : State} (hstep : engineStep s = .next t) (hbusy : s.status = .busy)
    (hfault : t.status = .fault) :
    ((s.node.toNat < s.ltlen.toNat ∧ t.cause = .outOfBits) ∨ (s.ltlen.toNat ≤ s.node.toNat ∧ t.cause = .malformedTree)) ∧
    ChangesOnly [.status, .cause, .ports] s t := by
  obtain ⟨u, hu, hout, -⟩ := engineStep_outcome s
  obtain rfl : t = u := Host.Outcome.next.inj (hstep.symm.trans hu)
  cases hout with
  | exit _ hdone => simp [hdone] at hfault
  | offTable _ hoff _ hcause _ hframe => exact ⟨.inr ⟨hoff, hcause⟩, fun p hp => hframe p (by simp_all)⟩
  | dry _ hin _ _ _ hcause _ hframe => exact ⟨.inl ⟨hin, hcause⟩, hframe⟩
  | leaf _ _ _ _ _ _ _ hframe | link _ _ _ _ _ _ _ _ _ _ _ hframe =>
    have hkeep : t.status = s.status := hframe .status (by decide)
    simp [hkeep, hbusy] at hfault

/-- Settles O32: only a running decode's engine step enters `FAULT`, with the frame of fault entry; in `FAULT` the engine is
idle. -/
theorem faultEntryFreezesState : Obligations.FaultEntryFreezesState := by
  intro s t hstep hbefore hfault
  rcases perform_status_cause_cases (show perform (nextMove s) (beginStep s) = .next t from hstep) with
    ⟨hnext, hbusy, hengine⟩ | ⟨hstatus, -⟩ | ⟨-, hidle, -⟩ | ⟨d, -, -, hbegun, -⟩
  · obtain ⟨hcause, hframe⟩ := engineStep_enters_fault hengine hbusy hfault
    refine ⟨hnext, hbusy, fun hin => ?_, fun hoff => ?_,
      (beginStep_frame s).trans hframe (by decide) (by decide), fun hagain => ?_⟩
    · rcases hcause with ⟨-, hc⟩ | ⟨hoff, -⟩
      · exact hc
      · exact absurd hin (Nat.not_lt.mpr hoff)
    · rcases hcause with ⟨hin, -⟩ | ⟨-, hc⟩
      · exact absurd hin (Nat.not_lt.mpr hoff)
      · exact hc
    · exact ⟨_, step_engine_idle hagain (by simp [hfault]), beginStep_frame t⟩
  · exact absurd (hstatus.symm.trans hfault) hbefore
  · simp [hidle] at hfault
  · simp [hbegun] at hfault

/-- A host operation never enters `FAULT` (R115): it keeps `STATE` or starts a decode. -/
theorem exec_host_status_fault {s : State} {n : RegNo} {d : Nat} {i : Instr}
    (hi : i = .start ∨ i = .regWrite n d ∨ i = .regRead n) :
    ∃ t, exec i s = .next t ∧ (t.status = .fault → s.status = .fault) := by
  rcases hi with rfl | rfl | rfl
  · refine ⟨startDecode s, rfl, fun hfault => ?_⟩
    rcases startDecode_cases s with ⟨-, hx⟩ | ⟨-, hx⟩ <;> rw [hx] at hfault
    · exact hfault
    · cases hfault
  · refine ⟨_, exec_regWrite n d s, fun hfault => ?_⟩
    rcases writeReg_status_cause_cases n d s with ⟨hstatus, -⟩ | ⟨-, -, hbegun, -⟩
    · exact hstatus.symm.trans hfault
    · simp [hbegun] at hfault
  · exact ⟨_, exec_regRead n s, id⟩

/-- Settles O17: the conditions of the five outcomes of an engine step are the clauses, in their order, and exclude each
other; a leaf and a link keep `STATE` and `CAUSE` by their frames. -/
theorem faultTestsInOrder : Obligations.FaultTestsInOrder := by
  refine ⟨fun s n d i hi => exec_host_status_fault hi, fun s hnext hbusy => ?_⟩
  obtain ⟨t, hstep, hout, -⟩ := engineStep_outcome (beginStep s)
  refine ⟨t, (step_engine_busy hnext hbusy).trans hstep, ?_⟩
  cases hout <;> simp only [beginStep_xsz, beginStep_prod, beginStep_node, beginStep_ltlen, beginStep_entryAt,
    beginStep_wordi, beginStep_hxsz] at *
  case exit hexit hdone _ _ => exact ⟨fun _ => hdone, by omega, by omega, by omega, by omega⟩
  case offTable hmore hoff hfault hcause _ _ =>
    exact ⟨by omega, fun _ _ => ⟨hfault, hcause⟩, by omega, by omega, by omega⟩
  case leaf hmore hin hleaf _ _ _ _ hframe =>
    exact ⟨by omega, by omega, by omega, by omega,
      fun _ _ _ => ⟨Eq.trans (hframe .status (by decide)) hbusy, hframe .cause (by decide)⟩⟩
  case link hmore hin hlink hleft _ _ _ _ _ _ _ hframe =>
    exact ⟨by omega, by omega, by omega,
      fun _ _ _ _ => ⟨Eq.trans (hframe .status (by decide)) hbusy, hframe .cause (by decide)⟩, by omega⟩
  case dry hmore hin hlink hempty hfault hcause _ _ =>
    exact ⟨by omega, by omega, fun _ _ _ _ => ⟨hfault, hcause⟩, by omega, by omega⟩

/-! ### The operations that raise a fault -/

/-- Everything `LINK` can do (R80, R111). -/
theorem exec_link_cases (m : Nat) (s : State) :
    (s.wordi.toNat < s.hxsz.toNat ∧ exec (.link m) s = .next (followLink m s)) ∨
    (s.hxsz.toNat ≤ s.wordi.toNat ∧ exec (.link m) s = .next (raise .outOfBits s)) := by
  show (_ ∧ execLink m s = _) ∨ (_ ∧ execLink m s = _)
  simp only [execLink, bitsLeft, decide_eq_true_eq]
  split_ifs with hleft
  · exact .inl ⟨hleft, rfl⟩
  · exact .inr ⟨Nat.le_of_not_lt hleft, rfl⟩

/-- Everything `FINISH` can do (R66); its only fault is that of the `TRAIL` inside it. -/
theorem exec_finish_cases (s : State) :
    (s.prod.toNat + 1 ≠ s.xsz.toNat ∧ exec .finish s = .next { s with status := .done }) ∨
    (s.prod.toNat + 1 = s.xsz.toNat ∧ s.node.toNat < s.ltlen.toNat ∧ exec .finish s =
      .next { storeSymbol (onLinkPort s (entryHere s)) (negN (entryHere s)) with status := .done }) ∨
    (s.prod.toNat + 1 = s.xsz.toNat ∧ s.ltlen.toNat ≤ s.node.toNat ∧
      exec .finish s = .next (raise .malformedTree s)) := by
  show (_ ∧ execFinish s = _) ∨ (_ ∧ _ ∧ execFinish s = _) ∨ (_ ∧ _ ∧ execFinish s = _)
  by_cases hdue : s.prod.toNat + 1 = s.xsz.toNat
  · have htrail : trailDue s = true := (trailDue_iff s).mpr hdue
    rcases trailing_cases s with ⟨hin, hx⟩ | ⟨hoff, hx⟩
    · exact .inr (.inl ⟨hdue, hin, by simp only [execFinish, htrail, if_true, hx]⟩)
    · exact .inr (.inr ⟨hdue, hoff, by simp only [execFinish, htrail, if_true, hx]⟩)
  · exact .inl ⟨hdue, if_neg (mt (trailDue_iff s).mp hdue)⟩

/-- What an operation does to `CAUSE` (R110 to R112): it keeps it, starts a decode, or raises one of the two faults on that
fault's own condition. -/
theorem exec_cause_cases {i : Instr} {s t : State} (h : exec i s = .next t) :
    t.cause = s.cause ∨ t.cause = .none ∨
    ((∃ m, i = .link m) ∧ s.hxsz.toNat ≤ s.wordi.toNat ∧ t = raise .outOfBits s) ∨
    ((i = .fetch ∨ i = .trail ∨ i = .finish) ∧ s.ltlen.toNat ≤ s.node.toNat ∧ t = raise .malformedTree s) := by
  have ends {u : State} (hu : exec i s = .next u) : t = u := Host.Outcome.next.inj (h.symm.trans hu)
  have keeps {u : State} (hu : exec i s = .next u) (hc : u.cause = s.cause) : t.cause = s.cause :=
    (congrArg State.cause (ends hu)).trans hc
  cases i with
  | leafZero | leafNeg | regRead => exact .inl (keeps rfl rfl)
  | link m =>
    rcases exec_link_cases m s with ⟨-, hx⟩ | ⟨hempty, hx⟩
    · exact .inl (keeps hx rfl)
    · exact .inr (.inr (.inl ⟨⟨m, rfl⟩, hempty, ends hx⟩))
  | fetch =>
    rcases exec_fetch_cases s with ⟨-, hx⟩ | ⟨hoff, hx⟩
    · exact .inl (keeps hx rfl)
    · exact .inr (.inr (.inr ⟨.inl rfl, hoff, ends hx⟩))
  | trail =>
    rcases exec_trail_cases s with ⟨-, hx⟩ | ⟨hoff, hx⟩
    · exact .inl (keeps hx rfl)
    · exact .inr (.inr (.inr ⟨.inr (.inl rfl), hoff, ends hx⟩))
  | finish =>
    rcases exec_finish_cases s with ⟨-, hx⟩ | ⟨-, -, hx⟩ | ⟨-, hoff, hx⟩
    · exact .inl (keeps hx rfl)
    · exact .inl (keeps hx rfl)
    · exact .inr (.inr (.inr ⟨.inr (.inr rfl), hoff, ends hx⟩))
  | start =>
    obtain rfl := ends rfl
    rcases startDecode_cases s with ⟨-, hx⟩ | ⟨-, hx⟩ <;> rw [hx]
    · exact .inl rfl
    · exact .inr (.inl rfl)
  | regWrite n d =>
    obtain rfl := ends (exec_regWrite n d s)
    rcases writeReg_status_cause_cases n d s with ⟨-, hcause⟩ | ⟨-, -, -, hcause⟩
    · exact .inl hcause
    · exact .inr (.inl hcause)

/-- An operation that newly leaves the cause `OUT_OF_BITS` is a `LINK` without a bit, and does fault entry only (R111). -/
theorem exec_outOfBits {i : Instr} {s t : State} (h : exec i s = .next t) (hbefore : s.cause ≠ .outOfBits)
    (hcause : t.cause = .outOfBits) :
    (∃ m, i = .link m) ∧ s.hxsz.toNat ≤ s.wordi.toNat ∧ t = raise .outOfBits s := by
  rcases exec_cause_cases h with hkeep | hnone | hlink | ⟨-, -, rfl⟩
  · exact absurd (hkeep.symm.trans hcause) hbefore
  · simp [hnone] at hcause
  · exact hlink
  · cases hcause

/-- Settles O34: the invariant gives `CAUSE = NONE` before, and a cursor that has come to `HXSZ` stands there with bit 15. -/
theorem outOfBitsOnlyFromLink : Obligations.OutOfBitsOnlyFromLink := by
  intro s t i hinv hbusy h
  have hbefore : s.cause ≠ .outOfBits := fun hc => by
    have hfault : s.status = .fault := hinv.cause_iff.mp (by simp [hc])
    simp [hbusy] at hfault
  refine ⟨⟨fun hcause => ?_, ?_⟩, fun hcause => ?_⟩
  · obtain ⟨hlink, hempty, -⟩ := exec_outOfBits h hbefore hcause
    exact ⟨hlink, hempty⟩
  · rintro ⟨⟨m, rfl⟩, hempty⟩
    rcases exec_link_cases m s with ⟨hleft, -⟩ | ⟨-, hx⟩
    · exact absurd hleft (Nat.not_lt.mpr hempty)
    · obtain rfl := Host.Outcome.next.inj (h.symm.trans hx)
      rfl
  · obtain ⟨-, hempty, rfl⟩ := exec_outOfBits h hbefore hcause
    have hdecode := hinv.decode hbusy
    have hend : s.wordi.toNat = s.hxsz.toNat := Nat.le_antisymm hdecode.cursor_le hempty
    exact ⟨hend, congrArg BitVec.toNat (hdecode.at_end hend), raise_frame _ s⟩

/-- Settles O35: `FETCH` off the table is fault entry, and the only other operations that raise this cause are reads of the
table off it. -/
theorem malformedTreeOnlyFromTableRead : Obligations.MalformedTreeOnlyFromTableRead := by
  intro s
  refine ⟨(fetchReturnsOrRaises s).2.1, fun t i h hbefore hcause => ?_⟩
  rcases exec_cause_cases h with hkeep | hnone | ⟨-, -, rfl⟩ | ⟨hread, hoff, rfl⟩
  · exact absurd (hkeep.symm.trans hcause) hbefore
  · simp [hnone] at hcause
  · cases hcause
  · exact ⟨hread, hoff, rfl, raise_frame _ s⟩

end Sys2Proof.Machine
end

section
/-! PROOFS. The encodings (30_encoding.md): decoder and encoder are inverse to each other, and operands are in range. -/

namespace Sys2Proof

/-- Settles O1: each word of the spec's vectors is evaluated. -/
theorem tableWordsDecode : Obligations.TableWordsDecode := by
  unfold Obligations.TableWordsDecode
  exact ⟨by decide, by decide, by decide, by decide, by decide, by decide, by decide, rfl, rfl, rfl, rfl⟩

/-! ### From an entry to its operation and back -/

/-- R59: an entry's operation stands for the entry's own integer. -/
theorem entryInteger_decodeEntry {w : Nat} (e : BitVec w) : entryInteger (decodeEntry e) = some e.toInt := by
  rcases lt_trichotomy e.toInt 0 with hneg | hzero | hpos
  · rw [decodeEntry_of_neg hneg, entryInteger, negN_toInt e hneg.le, neg_neg]
  · rw [decodeEntry_of_toInt_eq_zero hzero, entryInteger, hzero]
  · rw [decodeEntry_of_pos hpos, entryInteger, Int.toNat_of_nonneg hpos.le]

/-- Settles O5: the integer of the decoded operation is the entry's, and its spelling is the entry. -/
theorem encodeOfDecodedEntry : Obligations.EncodeOfDecodedEntry := by
  intro p e
  rw [encodeEntry, entryInteger_decodeEntry, Option.map_some, BitVec.ofInt_toInt]

/-- R50: the integers that `LINK_W` bits spell. -/
theorem toInt_bounds {p : Params} (e : BitVec p.linkW) :
    -((2 ^ (p.linkW - 1) : Nat) : Int) ≤ e.toInt ∧ e.toInt < (2 ^ (p.linkW - 1) : Nat) := by
  push_cast
  exact ⟨BitVec.le_toInt e, BitVec.toInt_lt⟩

/-- Settles O3: the operand is the entry's integer or its negation, and `LINK_W` bits bound it. -/
theorem decodedEntryIsWellFormed : Obligations.DecodedEntryIsWellFormed := by
  intro p e
  obtain ⟨hlow, hhigh⟩ := toInt_bounds e
  rcases lt_trichotomy e.toInt 0 with hneg | hzero | hpos
  · have hv := negN_toInt e hneg.le
    rw [decodeEntry_of_neg hneg]
    simp only [Instr.wf, Bool.and_eq_true, decide_eq_true_eq]
    omega
  · rw [decodeEntry_of_toInt_eq_zero hzero, Instr.wf]
  · rw [decodeEntry_of_pos hpos]
    simp only [Instr.wf, Bool.and_eq_true, decide_eq_true_eq]
    omega

/-! ### From an operation to its code and back -/

/-- The integer of a well-formed entry fits `LINK_W` bits (R52, R53). -/
theorem entryFits_entryInteger {p : Params} {i : Instr} {z : Int} (hwf : i.wf p = true)
    (hz : entryInteger i = some z) : entryFits p z = true := by
  have hcast : ((2 ^ (p.linkW - 1) : Nat) : Int) = 2 ^ (p.linkW - 1) := by push_cast; rfl
  have hpos : 0 < 2 ^ (p.linkW - 1) := Nat.two_pow_pos _
  simp only [entryFits, Bool.and_eq_true, decide_eq_true_eq, ← hcast]
  cases i with
  | leafZero => cases hz; omega
  | leafNeg v | link m =>
    cases hz
    simp only [Instr.wf, Bool.and_eq_true, decide_eq_true_eq] at hwf
    omega
  | _ => cases hz

/-- An entry with the integer of a well-formed operation decodes to it: the sign gives the class, the size the operand. -/
theorem decodeEntry_of_toInt_eq {p : Params} {i : Instr} {e : BitVec p.linkW} (hwf : i.wf p = true)
    (he : entryInteger i = some e.toInt) : decodeEntry e = i := by
  cases i with
  | leafZero => exact decodeEntry_of_toInt_eq_zero (Option.some.inj he).symm
  | leafNeg v =>
    have hv : -(v : Int) = e.toInt := Option.some.inj he
    simp only [Instr.wf, Bool.and_eq_true, decide_eq_true_eq] at hwf
    have hsymbol := negN_toInt e (by omega)
    rw [decodeEntry_of_neg (by omega)]
    congr 1
    omega
  | link m =>
    have hm : (m : Int) = e.toInt := Option.some.inj he
    simp only [Instr.wf, Bool.and_eq_true, decide_eq_true_eq] at hwf
    rw [decodeEntry_of_pos (by omega), ← hm, Int.toNat_natCast]
  | _ => cases he

/-- The decoder on the bits of an entry. -/
theorem decodeCode_entry {p : Params} (e : BitVec p.linkW) : decodeCode p (.entry e.toNat) = .ok (decodeEntry e) := by
  simp only [decodeCode, e.isLt, if_true, BitVec.ofNat_toNat, BitVec.setWidth_eq]

/-- The code of an operation that is an entry. -/
theorem decodeCode_of_entryInteger {p : Params} {i : Instr} {z : Int} (hwf : i.wf p = true)
    (hz : entryInteger i = some z) :
    encode p i = some (.entry (BitVec.ofInt p.linkW z).toNat) ∧
    decodeCode p (.entry (BitVec.ofInt p.linkW z).toNat) = .ok i := by
  have hint := toInt_ofInt_of_fits p z (entryFits_entryInteger hwf hz)
  refine ⟨by simp only [encode, encodeEntry, hz, Option.map_some], ?_⟩
  rw [decodeCode_entry, decodeEntry_of_toInt_eq hwf (hz.trans (congrArg some hint.symm))]

/-- The access of a well-formed host operation decodes to it (R58): bit 0 of a write to `CTRL` tells `START` apart. -/
theorem decodeAccess_of_encodeAccess {p : Params} {i : Instr} {a : RegAccess} (hwf : i.wf p = true)
    (ha : encodeAccess i = some a) : decodeAccess p a = .ok i := by
  cases i with
  | start =>
    cases ha
    have hone : 1 < 2 ^ p.regW := Nat.one_lt_two_pow (by simp [Params.regW])
    simp [decodeAccess, hone]
  | regWrite n d =>
    cases ha
    simp only [Instr.wf, Bool.and_eq_true, decide_eq_true_eq, Bool.not_eq_true', Bool.and_eq_false_iff,
      beq_eq_false_iff_ne] at hwf
    obtain ⟨hfits, hnot⟩ := hwf
    have hnotStart : ¬(n = 0 ∧ d.testBit 0 = true) := by
      rintro ⟨hn, hd⟩
      rcases hnot with h | h
      · exact h hn
      · simp [hd] at h
    simp only [decodeAccess, hfits, if_true, hnotStart, if_false]
  | regRead n => cases ha; rfl
  | _ => cases ha

/-- Settles O4: an operation with an encoding is an entry or an access, and each has its round trip. -/
theorem decodeOfEncode : Obligations.DecodeOfEncode := by
  intro p i c hwf hc
  cases hz : entryInteger i with
  | some z =>
    obtain ⟨hcode, hback⟩ := decodeCode_of_entryInteger hwf hz
    obtain rfl := Option.some.inj (hcode.symm.trans hc)
    exact hback
  | none =>
    simp only [encode, encodeEntry, hz, Option.map_none] at hc
    obtain ⟨a, ha, rfl⟩ := Option.map_eq_some_iff.mp hc
    exact decodeAccess_of_encodeAccess hwf ha

end Sys2Proof
end

section
/-! PROOFS. Single operations: `LEAF`, `LINK`, `FINISH` and `START` whole (41_link_and_leaf.md, 40_sequencing.md,
42_host_commands.md), that every operation completes, and which of them transfer control. -/

namespace Sys2Proof.Machine

theorem Same.refl (s : State) (p : Part) : Same s s p := by
  cases p with
  | stream | link | out => exact fun _ => rfl
  | _ => rfl

/-! ### `LEAF` (R81) -/

/-- The whole effect of an emission with a symbol outstanding (R81). -/
theorem emitSymbol_spec {s : State} (v : BitVec s.params.outW) (hmore : s.prod.toNat < s.xsz.toNat) :
    outAt (emitSymbol s v) s.prod.toNat = v.toNat ∧ (emitSymbol s v).prod.toNat = s.prod.toNat + 1 ∧
    (emitSymbol s v).node.toNat = 0 ∧ (emitSymbol s v).ports = s.ports ++ [.outWrite s.prod.toNat v.toNat] ∧
    OutChangesOnlyAt s.prod.toNat s (emitSymbol s v) ∧ ChangesOnly [.node, .prod, .out, .ports] s (emitSymbol s v) :=
  ⟨(outAt_emitSymbol s v _).trans (if_pos rfl), emitSymbol_prod s v hmore, emitSymbol_node s v, emitSymbol_ports s v,
    emitSymbol_outChangesOnlyAt s v, emitSymbol_frame s v⟩

/-- A symbol in the range of R53 fits its output element. -/
theorem toNat_symbolElem {p : Params} {v : Nat} (hwf : (Instr.leafNeg v).wf p = true) : (symbolElem p v).toNat = v := by
  simp only [Instr.wf, Bool.and_eq_true, decide_eq_true_eq] at hwf
  have hhalf : 2 ^ (p.linkW - 1) < 2 ^ p.outW := Nat.pow_lt_pow_right (by norm_num) (by simp)
  exact Nat.mod_eq_of_lt (hwf.2.trans_lt hhalf)

/-- Settles O6: the row is the emission of the symbol 0. -/
theorem leafZeroEmitsZero : Obligations.LeafZeroEmitsZero := fun s hmore =>
  ⟨emitSymbol s 0, rfl, by simpa using emitSymbol_spec (s := s) 0 hmore⟩

/-- Settles O7: the row is the emission of `v`, which fits its element. -/
theorem leafNegEmitsSymbol : Obligations.LeafNegEmitsSymbol := by
  intro s v hwf hmore
  have hspec := emitSymbol_spec (symbolElem s.params v) hmore
  rw [toNat_symbolElem hwf] at hspec
  exact ⟨emitSymbol s (symbolElem s.params v), rfl, hspec⟩

/-! ### `LINK` (R80, R84) -/

/-- R80: what a link with a bit left writes. -/
theorem followLink_frame (m : Nat) (s : State) :
    ChangesOnly [.node, .biti, .wordi, .stale, .draws, .ports] s (followLink m s) := by
  intro p hp
  cases p <;> simp_all [Same]

/-- The operand of a legal link is a node id (R52). -/
theorem link_lt_of_wf {p : Params} {m : Nat} (hwf : (Instr.link m).wf p = true) : m < 2 ^ p.nodeW := by
  have hpos : 0 < 2 ^ p.nodeW := Nat.two_pow_pos _
  have hm : 1 ≤ m ∧ m ≤ 2 ^ p.nodeW - 1 := by simpa [Instr.wf] using hwf
  omega

theorem bitIndex_eq_zero_iff {b : BitIndex} : b = 0 ↔ b.toNat = 0 := by
  simp [← BitVec.toNat_inj]

/-- R84: the cursor after a link, in its two cases. -/
theorem followLink_cursor_cases (m : Nat) {s : State} (hleft : s.wordi.toNat < s.hxsz.toNat) :
    (s.biti.toNat = 0 → (followLink m s).biti.toNat = 15 ∧ (followLink m s).wordi.toNat = s.wordi.toNat + 1) ∧
    (s.biti.toNat ≠ 0 →
      (followLink m s).biti.toNat = s.biti.toNat - 1 ∧ (followLink m s).wordi.toNat = s.wordi.toNat) := by
  have hword : (followLink m s).wordi.toNat = if s.biti = 0 then s.wordi.toNat + 1 else s.wordi.toNat :=
    (advanceCursor_spec s hleft).1
  rw [hword, followLink_biti]
  refine ⟨fun hz => ?_, fun hnz => ?_⟩
  · have hb : s.biti = 0 := bitIndex_eq_zero_iff.mpr hz
    rw [if_pos hb, if_pos hb]
    exact ⟨rfl, rfl⟩
  · have hb : s.biti ≠ 0 := mt bitIndex_eq_zero_iff.mp hnz
    rw [if_neg hb, if_neg hb]
    exact ⟨bitIndex_sub_one hb, rfl⟩

/-- A link with a bit left completes as `followLink` (R80). -/
theorem exec_link_of_left (m : Nat) {s : State} (hleft : s.wordi.toNat < s.hxsz.toNat) :
    exec (.link m) s = .next (followLink m s) := by
  rcases exec_link_cases m s with ⟨-, hx⟩ | ⟨hempty, -⟩
  · exact hx
  · exact absurd hleft (Nat.not_lt.mpr hempty)

/-- A link with no bit left is fault entry (R111). -/
theorem exec_link_of_empty (m : Nat) {s : State} (hempty : s.hxsz.toNat ≤ s.wordi.toNat) :
    exec (.link m) s = .next (raise .outOfBits s) := by
  rcases exec_link_cases m s with ⟨hleft, -⟩ | ⟨-, hx⟩
  · exact absurd hleft (Nat.not_lt.mpr hempty)
  · exact hx

/-- Settles O9: with a bit left the word is `engineWord`, in memory or an earlier content; with none it is fault entry. -/
theorem linkTakesChildOrRaises : Obligations.LinkTakesChildOrRaises := by
  intro s m hwf
  refine ⟨fun hleft => ?_, fun hempty => ?_⟩
  · obtain ⟨hwrap, hmove⟩ := followLink_cursor_cases m hleft
    refine ⟨_, engineWord s, exec_link_of_left m hleft, engineWord_cases s,
      followLink_node m s (link_lt_of_wf hwf), hwrap, hmove, followLink_ports m s, ?_, followLink_frame m s⟩
    rw [followLink_stale]
    exact if_congr bitIndex_eq_zero_iff rfl rfl
  · exact ⟨_, exec_link_of_empty m hempty, rfl, rfl, raise_frame _ s⟩

/-- Settles O10: the cursor counts one bit more, and with nothing stale the bit is the stream's next one. -/
theorem linkConsumesNextStreamBit : Obligations.LinkConsumesNextStreamBit := by
  intro s m hwf hleft
  refine ⟨_, exec_link_of_left m hleft, (advanceCursor_spec s hleft).2, fun hfresh => ?_⟩
  rw [followLink_node m s (link_lt_of_wf hwf), engineBit_of_fresh hfresh, childOf]

/-! ### `FINISH` (R66) -/

theorem setStatus_frame (s : State) (st : Status) : ChangesOnly [.status] s { s with status := st } := by
  intro p hp
  cases p with
  | status => exact absurd (by decide) hp
  | stream | link | out => exact fun _ => rfl
  | _ => rfl

/-- Settles O12: the three cases of `FINISH`; with `NODE` in the table the `TRAIL` inside it completes first. -/
theorem finishEndsDecode : Obligations.FinishEndsDecode := by
  intro s
  rcases exec_finish_cases s with ⟨hnot, hx⟩ | ⟨hdue, hin, hx⟩ | ⟨hdue, hoff, hx⟩
  · exact ⟨fun _ => ⟨_, hx, rfl, setStatus_frame s .done⟩, fun hdue => absurd hdue hnot, fun hdue => absurd hdue hnot⟩
  · refine ⟨fun hnot => absurd hdue hnot, fun _ _ => ?_, fun _ hoff => absurd hin (Nat.not_lt.mpr hoff)⟩
    rcases exec_trail_cases s with ⟨-, htrail⟩ | ⟨hoff, -⟩
    · exact ⟨_, _, htrail, hx, rfl, setStatus_frame _ .done⟩
    · exact absurd hin (Nat.not_lt.mpr hoff)
  · exact ⟨fun hnot => absurd hdue hnot, fun _ hin => absurd hin (Nat.not_lt.mpr hoff),
      fun _ _ => ⟨_, hx, rfl, rfl, raise_frame _ s⟩⟩

/-! ### `START` (R97) -/

theorem exec_start (s : State) : exec .start s = .next (startDecode s) := rfl

/-- R97: what `START` writes when no decode runs. -/
theorem startDecode_of_idle {s : State} (hidle : s.status ≠ .busy) :
    startDecode s =
      { s with node := 0, biti := 15, wordi := 0, prod := 0, cause := .none, status := .busy, stale := [] } :=
  if_neg hidle

theorem startDecode_frame (s : State) :
    ChangesOnly [.node, .biti, .wordi, .prod, .cause, .status, .stale] s (startDecode s) := by
  intro p hp
  rcases startDecode_cases s with ⟨-, hx⟩ | ⟨-, hx⟩ <;> rw [hx]
  · exact Same.refl s p
  · cases p with
    | node | biti | wordi | prod | cause | status | stale => exact absurd (by decide) hp
    | stream | link | out => exact fun _ => rfl
    | _ => rfl

/-- The registers after an accepted `START`. -/
theorem startDecode_registers {s : State} (hidle : s.status ≠ .busy) :
    (startDecode s).node.toNat = 0 ∧ (startDecode s).biti.toNat = 15 ∧ (startDecode s).wordi.toNat = 0 ∧
    (startDecode s).prod.toNat = 0 ∧ (startDecode s).cause = .none ∧ (startDecode s).status = .busy ∧
    (startDecode s).stale = [] := by
  rw [startDecode_of_idle hidle]
  exact ⟨rfl, rfl, rfl, rfl, rfl, rfl, rfl⟩

/-- Settles O20: a write of `CTRL` with bit 0 set is `startDecode`, whose registers and frame are the claim. -/
theorem startBeginsDecode : Obligations.StartBeginsDecode := by
  intro s hidle
  refine ⟨fun d hodd => ?_, startDecode s, exec_start s, ?_⟩
  · rw [exec_regWrite, writeReg_ctrl, if_pos hodd, exec_start]
  · obtain ⟨hnode, hbiti, hwordi, hprod, hcause, hstatus, hstale⟩ := startDecode_registers hidle
    exact ⟨hnode, hbiti, hwordi, hprod, hcause, hstatus, hstale, startDecode_frame s⟩

/-! ### Rules about all operations -/

/-- Settles O41: each arm answers a next state, in each of its cases. -/
theorem everyOperationCompletes : Obligations.EveryOperationCompletes := by
  intro i s
  cases i with
  | leafZero | leafNeg | start | regWrite | regRead => exact ⟨_, rfl⟩
  | link m => rcases exec_link_cases m s with ⟨-, hx⟩ | ⟨-, hx⟩ <;> exact ⟨_, hx⟩
  | fetch => rcases exec_fetch_cases s with ⟨-, hx⟩ | ⟨-, hx⟩ <;> exact ⟨_, hx⟩
  | trail => rcases exec_trail_cases s with ⟨-, hx⟩ | ⟨-, hx⟩ <;> exact ⟨_, hx⟩
  | finish => rcases exec_finish_cases s with ⟨-, hx⟩ | ⟨-, -, hx⟩ | ⟨-, -, hx⟩ <;> exact ⟨_, hx⟩

/-- R52, R83: the children of a legal link. -/
theorem childOf_cases {m : Nat} (hm : 1 ≤ m) (b : Bool) : childOf m b = m ∨ childOf m b + 1 = m := by
  cases b
  · exact .inr (Nat.sub_add_cancel hm)
  · exact .inl rfl

/-- A register write sets `NODE` to 0 when it is `START`, and leaves it otherwise (R87, R95). -/
theorem writeReg_node_cases (n : RegNo) (d : Nat) (s : State) :
    (writeReg n d s).node.toNat = s.node.toNat ∨ (n = 0 ∧ d.testBit 0 = true) := by
  rcases writeReg_cases n d s with ⟨hn, hd, -⟩ | hx | ⟨-, -, hx⟩ | ⟨-, -, hx⟩ | ⟨-, -, hx⟩
  · exact .inr ⟨hn, hd⟩
  all_goals rw [hx]; exact .inl rfl

/-- Settles O42: only `LINK`, `LEAF` and `START` write `NODE`; a well-formed register write is no `START`. -/
theorem controlTransfersAreExact : Obligations.ControlTransfersAreExact := by
  intro i s t hwf h
  have ends {u : State} (hu : exec i s = .next u) : t = u := Host.Outcome.next.inj (h.symm.trans hu)
  have keeps {u : State} (hu : exec i s = .next u) (hn : u.node.toNat = s.node.toNat) : Same s t .node := by
    rw [ends hu]
    exact hn
  cases i with
  | leafZero => exact .inr (.inr ⟨.inl rfl, by rw [ends rfl]; rfl⟩)
  | leafNeg v => exact .inr (.inr ⟨.inr (.inl ⟨v, rfl⟩), by rw [ends rfl]; rfl⟩)
  | link m =>
    rcases exec_link_cases m s with ⟨-, hx⟩ | ⟨-, hx⟩
    · have hm : 1 ≤ m := by
        simp only [Instr.wf, Bool.and_eq_true, decide_eq_true_eq] at hwf
        exact hwf.1
      refine .inr (.inl ⟨m, rfl, ?_⟩)
      rw [ends hx, followLink_node m s (link_lt_of_wf hwf)]
      exact childOf_cases hm _
    · exact .inl (keeps hx rfl)
  | fetch => rcases exec_fetch_cases s with ⟨-, hx⟩ | ⟨-, hx⟩ <;> exact .inl (keeps hx rfl)
  | trail => rcases exec_trail_cases s with ⟨-, hx⟩ | ⟨-, hx⟩ <;> exact .inl (keeps hx rfl)
  | finish => rcases exec_finish_cases s with ⟨-, hx⟩ | ⟨-, -, hx⟩ | ⟨-, -, hx⟩ <;> exact .inl (keeps hx rfl)
  | start =>
    by_cases hbusy : s.status = .busy
    · exact .inl (keeps (exec_start s) (by rw [startDecode_of_busy hbusy]))
    · refine .inr (.inr ⟨.inr (.inr rfl), ?_⟩)
      rw [ends (exec_start s)]
      exact (startDecode_registers hbusy).1
  | regWrite n d =>
    rcases writeReg_node_cases n d s with hn | ⟨rfl, hd⟩
    · exact .inl (keeps (exec_regWrite n d s) hn)
    · simp only [Instr.wf, hd, Bool.and_eq_true, Bool.not_eq_true'] at hwf
      exact absurd hwf.2 (by decide)
  | regRead n => exact .inl (keeps (exec_regRead n s) rfl)

end Sys2Proof.Machine
end

section
/-! PROOFS. One step of any agent (00_scope.md R5): the effect of each move with its frame, and what follows for what a
step may change, read, write and stop on. -/

namespace Sys2Proof.Machine

/-! ### The effect of a move -/

theorem ChangesOnly.mono {ps qs : List Part} {s t : State} (h : ChangesOnly ps s t) (hsub : ps ⊆ qs) :
    ChangesOnly qs s t := fun p hp => h p fun hm => hp (hsub hm)

theorem ChangesOnly.refl (ps : List Part) (s : State) : ChangesOnly ps s s := fun p _ => Same.refl s p

/-- The outcome of an engine step, read off its answer. -/
theorem engineStep_inv {s t : State} (h : engineStep s = .next t) :
    EngineOutcome s t ∧ (MemoriesOk s → MemoriesOk t) := by
  obtain ⟨u, hu, hout, hmem⟩ := engineStep_outcome s
  obtain rfl := Host.Outcome.next.inj (h.symm.trans hu)
  exact ⟨hout, hmem⟩

/-- The parts that an engine step may change at all. -/
theorem EngineOutcome.frame {s t : State} (h : EngineOutcome s t) :
    ChangesOnly [.node, .biti, .wordi, .prod, .status, .cause, .out, .stale, .draws, .ports] s t := by
  cases h <;> exact ChangesOnly.mono (by assumption) (by decide)

/-- What a move leaves in the state in which it is made, agent by agent. -/
inductive MoveEffect (m : Move) (s t : State) : Prop
  /-- The engine's step in a running decode. -/
  | engine (move : m = .engine) (busy : s.status = .busy) (outcome : EngineOutcome s t)
  /-- The idle engine, a register read, or a register write that is dropped. -/
  | quiet (move : m = .engine → s.status ≠ .busy) (frame : ChangesOnly [.ports] s t)
  /-- `START` while no decode runs. -/
  | start (d : Nat) (move : m = .access (.write 0 d)) (idle : s.status ≠ .busy) (result : t = startDecode s)
  /-- A write of an operand register while no decode runs. -/
  | operand (n : RegNo) (d : Nat) (move : m = .access (.write n d)) (idle : s.status ≠ .busy)
      (frame : ChangesOnly [.xsz, .hxsz, .ltlen] s t)
  /-- The reset event. -/
  | reset (move : m = .reset) (result : t = resetEvent s)
  /-- The platform's write of `STREAM`. -/
  | stream (a : Nat) (w : StreamWord) (move : m = .placeStream a w) (stale : t.stale = staleAfter a s)
      (frame : ChangesOnly [.stream, .stale] s t)
  /-- The platform's write of `LINK`. -/
  | link (a : Nat) (e : Int) (move : m = .placeLink a e) (frame : ChangesOnly [.link] s t)
  /-- The platform's write of `OUT`. -/
  | out (a v : Nat) (move : m = .placeOut a v) (frame : ChangesOnly [.out] s t)

/-- A write of the platform to `STREAM` changes nothing but the space and the record of earlier contents. -/
theorem setStream_frame (s : State) (m : Memory 16) (l : List StreamWord) :
    ChangesOnly [.stream, .stale] s { s with stream := m, stale := l } := by
  intro p hp
  cases p with
  | stream | stale => exact absurd (by decide) hp
  | link | out => exact fun _ => rfl
  | _ => rfl

theorem setLink_frame (s : State) (m : Memory s.params.linkW) : ChangesOnly [.link] s { s with link := m } := by
  intro p hp
  cases p with
  | link => exact absurd (by decide) hp
  | stream | out => exact fun _ => rfl
  | _ => rfl

theorem setOut_frame (s : State) (m : Memory s.params.outW) : ChangesOnly [.out] s { s with out := m } := by
  intro p hp
  cases p with
  | out => exact absurd (by decide) hp
  | stream | link => exact fun _ => rfl
  | _ => rfl

theorem writeReg_effect (n : RegNo) (d : Nat) (s : State) :
    MoveEffect (.access (.write n d)) s (writeReg n d s) := by
  rcases writeReg_cases n d s with ⟨rfl, -, hx⟩ | hx | ⟨hidle, -, hx⟩ | ⟨hidle, -, hx⟩ | ⟨hidle, -, hx⟩ <;> rw [hx]
  · by_cases hbusy : s.status = .busy
    · rw [startDecode_of_busy hbusy]
      exact .quiet nofun (.refl _ s)
    · exact .start d rfl hbusy rfl
  · exact .quiet nofun (.refl _ s)
  · exact .operand n d rfl hidle
      (operands_update_frame _ s.hxsz s.ltlen (.inl (by decide)) (.inr rfl) (.inr rfl))
  · exact .operand n d rfl hidle
      (operands_update_frame s.xsz _ s.ltlen (.inr rfl) (.inl (by decide)) (.inr rfl))
  · exact .operand n d rfl hidle
      (operands_update_frame s.xsz s.hxsz _ (.inr rfl) (.inr rfl) (.inl (by decide)))

/-- Every move that answers a next state has one of the effects. -/
theorem perform_effect {m : Move} {s t : State} (h : perform m s = .next t) : MoveEffect m s t := by
  rcases perform_cases h with ⟨hm, hbusy, hx⟩ | ⟨-, hidle, rfl⟩ | ⟨n, d, rfl, rfl⟩ | ⟨n, rfl, rfl⟩ | ⟨hm, rfl⟩ |
    ⟨a, w, hm, -, rfl⟩ | ⟨a, e, hm, -, rfl⟩ | ⟨a, v, hm, -, rfl⟩
  · exact .engine hm hbusy (engineStep_inv hx).1
  · exact .quiet (fun _ => hidle) (.refl _ _)
  · exact writeReg_effect n d s
  · exact .quiet nofun (onPort_frame s _)
  · exact .reset hm rfl
  · exact .stream a w hm rfl (setStream_frame s _ _)
  · exact .link a e hm (setLink_frame s _)
  · exact .out a v hm (setOut_frame s _)

/-- A step is the effect of its move in the state from which the move has left the agenda. -/
theorem step_effect {s t : State} (h : step s = .next t) : MoveEffect (nextMove s) (beginStep s) t := perform_effect h

/-- A step of the engine in a running decode always completes, with one of its outcomes. -/
theorem step_engine_outcome {s : State} (hnext : nextMove s = .engine) (hbusy : s.status = .busy) :
    ∃ t, step s = .next t ∧ EngineOutcome (beginStep s) t := by
  obtain ⟨t, hstep, hout, -⟩ := engineStep_outcome (beginStep s)
  exact ⟨t, (step_engine_busy hnext hbusy).trans hstep, hout⟩

/-- The outcome of an engine step of a running decode, read off its answer. -/
theorem step_engine_inv {s t : State} (hnext : nextMove s = .engine) (hbusy : s.status = .busy)
    (h : step s = .next t) : EngineOutcome (beginStep s) t :=
  (engineStep_inv ((step_engine_busy hnext hbusy).symm.trans h)).1

/-- A frame of a step's move is one of the step, but for the agenda and the ports. -/
theorem frame_of_beginStep {ps qs : List Part} {s t : State} (h : ChangesOnly ps (beginStep s) t)
    (hps : ps ⊆ qs) (hqs : [.agenda, .ports] ⊆ qs) : ChangesOnly qs s t := (beginStep_frame s).trans h hqs hps

/-! ### What a step changes -/

/-- Settles O44: only a register write while no decode runs and the reset event touch an operand register. -/
theorem operandsStableWhileBusy : Obligations.OperandsStableWhileBusy := by
  intro s t hstep
  have stays {ps : List Part} (h : ChangesOnly ps (beginStep s) t) (hp : .params ∉ ps) (hx : .xsz ∉ ps)
      (hh : .hxsz ∉ ps) (hl : .ltlen ∉ ps) : t.params = s.params ∧ (s.status = .busy → nextMove s ≠ .reset →
        Same s t .xsz ∧ Same s t .hxsz ∧ Same s t .ltlen) :=
    ⟨h .params hp, fun _ _ => ⟨h .xsz hx, h .hxsz hh, h .ltlen hl⟩⟩
  cases step_effect hstep with
  | engine _ _ hout => exact stays hout.frame (by decide) (by decide) (by decide) (by decide)
  | quiet _ hframe | stream _ _ _ _ hframe | link _ _ _ hframe | out _ _ _ hframe =>
    exact stays hframe (by decide) (by decide) (by decide) (by decide)
  | start _ _ _ hresult =>
    subst hresult
    exact stays (startDecode_frame _) (by decide) (by decide) (by decide) (by decide)
  | operand _ _ _ hidle hframe => exact ⟨hframe .params (by decide), fun hbusy => absurd hbusy hidle⟩
  | reset hmove hresult => exact ⟨by rw [hresult]; rfl, fun _ hno => absurd hmove hno⟩

/-- Settles O45: each frame but those of the engine and of the platform's writes leaves the three spaces. -/
theorem inputsOnlyChangedByPlatform : Obligations.InputsOnlyChangedByPlatform := by
  intro s t hstep
  cases step_effect hstep with
  | engine hmove _ hout =>
    exact ⟨fun _ => hout.frame .stream (by decide), fun _ => hout.frame .link (by decide),
      fun _ hno => absurd hmove hno⟩
  | quiet _ hframe | operand _ _ _ _ hframe =>
    exact ⟨fun _ => hframe .stream (by decide), fun _ => hframe .link (by decide), fun _ _ => hframe .out (by decide)⟩
  | start _ _ _ hresult =>
    have hframe := startDecode_frame (beginStep s)
    rw [hresult]
    exact ⟨fun _ => hframe .stream (by decide), fun _ => hframe .link (by decide), fun _ _ => hframe .out (by decide)⟩
  | reset _ hresult =>
    rw [hresult]
    exact ⟨fun _ _ => rfl, fun _ _ => rfl, fun _ _ _ => rfl⟩
  | stream a w hmove _ hframe =>
    exact ⟨fun hno => absurd hmove (hno a w), fun _ => hframe .link (by decide), fun _ _ => hframe .out (by decide)⟩
  | link a e hmove hframe =>
    exact ⟨fun _ => hframe .stream (by decide), fun hno => absurd hmove (hno a e), fun _ _ => hframe .out (by decide)⟩
  | out a v hmove hframe =>
    exact ⟨fun _ => hframe .stream (by decide), fun _ => hframe .link (by decide), fun hno => absurd hmove (hno a v)⟩

/-- Settles O46: only the outcome `leaf` touches `PROD` and `OUT`, at the old `PROD`. -/
theorem outputGrowsInOrder : Obligations.OutputGrowsInOrder := by
  intro s t hnext hbusy hstep
  cases step_engine_inv hnext hbusy hstep with
  | exit _ _ _ hframe | offTable _ _ _ _ _ hframe | link _ _ _ _ _ _ _ _ _ _ _ hframe | dry _ _ _ _ _ _ _ hframe =>
    exact .inl ⟨hframe .prod (by decide), hframe .out (by decide)⟩
  | leaf hmore _ _ _ hprod hout => exact .inr ⟨hmore, hprod, fun b hb => (hout b).trans (if_neg hb)⟩

/-- Settles O47: the record of the ports in each outcome of the engine step. -/
theorem engineAccessesStayInExtents : Obligations.EngineAccessesStayInExtents := by
  intro s t hnext hbusy hstep
  cases step_engine_inv hnext hbusy hstep with
  | exit _ _ hports | offTable _ _ _ _ hports => exact .inl hports
  | leaf hmore hin _ _ _ hout hports =>
    have hsymbol : outAt t s.prod.toNat = (negN (entryHere s)).toNat := (hout _).trans (if_pos rfl)
    refine .inr ⟨hin, .inr (.inr ⟨hmore, ?_⟩)⟩
    rw [hsymbol]
    exact hports
  | link _ hin _ hleft _ _ _ _ hports =>
    exact .inr ⟨hin, .inr (.inl ⟨hleft, engineWord s, engineWord_cases s, hports⟩)⟩
  | dry _ hin _ _ _ _ hports => exact .inr ⟨hin, .inl hports⟩

/-! ### What may be stale (93_implementation_defined.md U8) -/

/-- Settles O29: of the moves only a link step, `START` and reset empty the record, and only the platform adds to it. -/
theorem staleWordOnlyByLiveWrite : Obligations.StaleWordOnlyByLiveWrite := by
  intro s t hstep
  cases step_effect hstep with
  | engine _ _ hout =>
    cases hout with
    | exit _ _ _ hframe | offTable _ _ _ _ _ hframe | leaf _ _ _ _ _ _ _ hframe | dry _ _ _ _ _ _ _ hframe =>
      exact .inl (hframe .stale (by decide))
    | link _ _ _ _ _ _ _ _ _ hstale =>
      rw [hstale]
      split_ifs
      · exact .inr (.inl rfl)
      · exact .inl rfl
  | quiet _ hframe | operand _ _ _ _ hframe | link _ _ _ hframe | out _ _ _ hframe =>
    exact .inl (hframe .stale (by decide))
  | start _ _ hidle hresult =>
    rw [hresult, startDecode_of_idle hidle]
    exact .inr (.inl rfl)
  | reset _ hresult =>
    rw [hresult]
    exact .inr (.inl rfl)
  | stream a w hmove hstale _ =>
    rw [hstale]
    rcases staleAfter_cases a (beginStep s) with ⟨hbusy, hcur, hlive, hx⟩ | hx
    · obtain rfl : a = s.wordi.toNat := hcur
      exact .inr (.inr ⟨w, hmove, hbusy, hlive, hx⟩)
    · exact .inl hx

/-- A step to `BUSY` that keeps `STATE` and `WORDI` comes to no new word. -/
theorem not_new_word_of_keeps {s t : State} (hstatus : t.status = s.status) (hwordi : t.wordi.toNat = s.wordi.toNat)
    (hbusy : t.status = .busy) : ¬(t.wordi.toNat ≠ s.wordi.toNat ∨ s.status ≠ .busy) := by
  rintro (h | h)
  · exact h hwordi
  · exact h (hstatus.symm.trans hbusy)

/-- Settles O30: `WORDI` moves in a link step's wrap or by `START`, and `BUSY` is entered by `START` only. -/
theorem newWordIsNeverStale : Obligations.NewWordIsNeverStale := by
  intro s t hstep hbusy hnew
  cases step_effect hstep with
  | engine _ hbefore hout =>
    cases hout with
    | exit _ hstatus | offTable _ _ hstatus | dry _ _ _ _ hstatus => simp [hstatus] at hbusy
    | leaf _ _ _ _ _ _ _ hframe =>
      exact absurd hnew (not_new_word_of_keeps (hframe .status (by decide)) (hframe .wordi (by decide)) hbusy)
    | link _ _ _ _ _ _ hwordi _ _ hstale _ hframe =>
      by_cases hwrap : (beginStep s).biti = 0
      · rw [hstale, if_pos hwrap]
      · rw [if_neg hwrap] at hwordi
        exact absurd hnew (not_new_word_of_keeps (hframe .status (by decide)) hwordi hbusy)
  | quiet _ hframe | operand _ _ _ _ hframe | stream _ _ _ _ hframe | link _ _ _ hframe | out _ _ _ hframe =>
    exact absurd hnew (not_new_word_of_keeps (hframe .status (by decide)) (hframe .wordi (by decide)) hbusy)
  | start _ _ hidle hresult =>
    rw [hresult, startDecode_of_idle hidle]
  | reset _ hresult => simp [hresult] at hbusy

end Sys2Proof.Machine
end

section
/-! PROOFS. Steps by their move: the engine's fetch and dispatch (40_sequencing.md), the host's accesses and the
platform's writes (42_host_commands.md), the reset event, the pins, and the stops. -/

namespace Sys2Proof.Machine

/-! ### `FETCH` and dispatch (R65, R67, R68) -/

theorem exec_fetch_of_inTable {s : State} (hin : s.node.toNat < s.ltlen.toNat) :
    exec .fetch s = .next (onLinkPort s (entryHere s)) := by
  rcases exec_fetch_cases s with ⟨-, hx⟩ | ⟨hoff, -⟩
  · exact hx
  · exact absurd hin (Nat.not_lt.mpr hoff)

/-- With a symbol outstanding and `NODE` in the table the entry alone selects the operation (R68). -/
theorem engineStep_eq_exec {s : State} (hmore : s.prod.toNat < s.xsz.toNat) (hin : s.node.toNat < s.ltlen.toNat) :
    engineStep s = exec (decodeEntry (entryHere s)) (onLinkPort s (entryHere s)) := by
  have hgo : loopGoes s = true := decide_eq_true hmore
  rcases fetchEntry_cases s with ⟨-, hf⟩ | ⟨hoff, -⟩
  · simp only [engineStep, hgo, if_true, hf]
  · exact absurd hin (Nat.not_lt.mpr hoff)

/-- Settles O15: the state in which the operation is executed is the one `FETCH` answers. -/
theorem engineStepRunsDecodedEntry : Obligations.EngineStepRunsDecodedEntry := by
  rintro s i hnext hbusy hmore hin rfl
  have hstep : step s = engineStep (beginStep s) := step_engine_busy hnext hbusy
  exact ⟨_, exec_fetch_of_inTable (s := beginStep s) hin,
    hstep.trans (engineStep_eq_exec (s := beginStep s) hmore hin), rfl, rfl,
    (beginStep_frame s).trans (onLinkPort_frame (beginStep s) _) (by decide) (by decide)⟩

/-- What a placed word needs to be fetched next: a symbol outstanding, `NODE` in the table, and the word there. -/
theorem placeNextEntry_ready (s : State) (w : Nat) :
    (placeNextEntry s w).prod.toNat < (placeNextEntry s w).xsz.toNat ∧
    (placeNextEntry s w).node.toNat < (placeNextEntry s w).ltlen.toNat ∧
    linkEntry (placeNextEntry s w) (placeNextEntry s w).node.toNat = BitVec.ofNat s.params.linkW w := by
  refine ⟨?_, ?_, ?_⟩
  · show (if loopGoes s then s.prod else 0).toNat < (if loopGoes s then s.xsz else 1).toNat
    split_ifs with hgo
    · simpa [loopGoes] using hgo
    · simp
  · show s.node.toNat < (if nodeInTable s then s.ltlen else BitVec.ofNat s.params.linkW (s.node.toNat + 1)).toNat
    split_ifs with hin
    · simpa [nodeInTable] using hin
    · have hnode := s.node.isLt
      have hwider : 2 ^ s.params.linkW = 2 * 2 ^ s.params.nodeW := pow_succ' 2 _
      rw [BitVec.toNat_ofNat, Nat.mod_eq_of_lt (by omega)]
      omega
  · exact (read_write _ _ _ _ _).trans (if_pos rfl)

/-- Settles O16: the placed word is ready, so it is the decoded entry of the next step. -/
theorem placedWordRunsNext : Obligations.PlacedWordRunsNext := by
  intro s nbits w
  obtain ⟨hmore, hin, hentry⟩ := placeNextEntry_ready s (w % 2 ^ nbits)
  obtain ⟨f, hfetch, hstep, -⟩ :=
    engineStepRunsDecodedEntry (s.withFetchWord nbits w) _ rfl rfl hmore hin (congrArg decodeEntry hentry)
  exact ⟨f, hfetch, hstep⟩

/-- Settles O18: the engine's turn outside `BUSY` is `beginStep` alone. -/
theorem idleEngineKeepsState : Obligations.IdleEngineKeepsState := fun s hnext hidle =>
  ⟨beginStep s, step_engine_idle hnext hidle, rfl, rfl, beginStep_frame s⟩

/-- A step of a running decode that finds `NODE` off the table is fault entry (R112). -/
theorem step_offTable {s : State} (hnext : nextMove s = .engine) (hbusy : s.status = .busy)
    (hmore : s.prod.toNat < s.xsz.toNat) (hoff : s.ltlen.toNat ≤ s.node.toNat) :
    ∃ t, step s = .next t ∧ t.status = .fault ∧ t.cause = .malformedTree ∧
      ChangesOnly [.status, .cause, .agenda, .ports] s t := by
  obtain ⟨t, hstep, hout⟩ := step_engine_outcome hnext hbusy
  cases hout with
  | offTable _ _ hstatus hcause _ hframe =>
    exact ⟨t, hstep, hstatus, hcause, frame_of_beginStep hframe (by decide) (by decide)⟩
  | exit hexit => exact absurd hmore (Nat.not_lt.mpr hexit)
  | leaf _ hin | link _ hin | dry _ hin => exact absurd hin (Nat.not_lt.mpr hoff)

/-- A link step with a bit left, as the engine makes it (R80). -/
theorem step_link {s : State} (hnext : nextMove s = .engine) (hbusy : s.status = .busy)
    (hmore : s.prod.toNat < s.xsz.toNat) (hin : s.node.toNat < s.ltlen.toNat) (hlink : 0 < entryAt s s.node.toNat)
    (hleft : s.wordi.toNat < s.hxsz.toNat) :
    ∃ t, step s = .next t ∧ bitsConsumed t = bitsConsumed s + 1 ∧
      t.node.toNat = childOf (entryAt s s.node.toNat).toNat ((engineWord s).getLsbD s.biti.toNat) ∧
      t.stale = (if s.biti = 0 then [] else s.stale) ∧
      ChangesOnly [.node, .biti, .wordi, .stale, .draws, .agenda, .ports] s t := by
  obtain ⟨t, hstep, hout⟩ := step_engine_outcome hnext hbusy
  cases hout with
  | link _ _ _ _ hnode _ _ hconsumed _ hstale _ hframe =>
    exact ⟨t, hstep, hconsumed, hnode, hstale, frame_of_beginStep hframe (by decide) (by decide)⟩
  | exit hexit => exact absurd hmore (Nat.not_lt.mpr hexit)
  | offTable _ hoff => exact absurd hin (Nat.not_lt.mpr hoff)
  | leaf _ _ hleaf => exact absurd hlink (Int.not_lt.mpr hleaf)
  | dry _ _ _ hempty => exact absurd hleft (Nat.not_lt.mpr hempty)

/-- The count of R29 item 4 is one of the two cursor registers only. -/
theorem bitsConsumed_congr {s t : State} (hbiti : Same s t .biti) (hwordi : Same s t .wordi) :
    bitsConsumed t = bitsConsumed s := by
  have hb : t.biti = s.biti := hbiti
  have hw : t.wordi.toNat = s.wordi.toNat := hwordi
  rw [bitsConsumed, bitsConsumed, hb, hw]

/-- Settles O19: a link step does not look at the child it goes to; the next step does, and is fault entry. -/
theorem linkBeyondTableFaultsNext : Obligations.LinkBeyondTableFaultsNext := by
  intro s hnext hbusy hmore hin hlink hleft
  obtain ⟨t, hstep, hconsumed, hnode, -, hframe⟩ := step_link hnext hbusy hmore hin hlink hleft
  have hbusy' : t.status = .busy := Eq.trans (hframe .status (by decide)) hbusy
  refine ⟨t, _, hstep, hbusy', hnode, engineBit_of_fresh, fun hoff hnext' => ?_⟩
  have hprod : t.prod.toNat = s.prod.toNat := hframe .prod (by decide)
  have hxsz : t.xsz.toNat = s.xsz.toNat := hframe .xsz (by decide)
  have hltlen : t.ltlen.toNat = s.ltlen.toNat := hframe .ltlen (by decide)
  obtain ⟨u, hstep', hfault, hcause, hframe'⟩ := step_offTable hnext' hbusy' (by omega) (by omega)
  exact ⟨u, hstep', hfault, hcause, hframe' .node (by decide),
    (bitsConsumed_congr (hframe' .biti (by decide)) (hframe' .wordi (by decide))).trans hconsumed,
    Eq.trans (hframe' .prod (by decide)) hprod⟩

/-! ### The host's accesses (R58, R95, R96) -/

/-- Settles O25: the write puts the field into its register, and the read shows the register whole. -/
theorem operandWriteReadsBack : Obligations.OperandWriteReadsBack := by
  intro s n d hidle hn hd
  obtain ⟨-, -, -, hxsz, hhxsz, hltlen, -⟩ := regWriteFollowsMap s n d hd
  rcases hn with rfl | rfl | rfl
  · obtain ⟨t, hwrite, hfield, hframe⟩ := hxsz rfl hidle
    obtain ⟨u, v, hread, hports, -, -, -, hv, -⟩ := regReadReturnsMap t 2
    have hkeep : t.ports = s.ports := hframe .ports (by decide)
    exact ⟨t, u, v, hwrite, hread, hkeep ▸ hports, fun _ => (hv rfl).trans hfield, nofun, nofun⟩
  · obtain ⟨t, hwrite, hfield, hframe⟩ := hhxsz rfl hidle
    obtain ⟨u, v, hread, hports, -, -, -, -, hv, -⟩ := regReadReturnsMap t 3
    have hkeep : t.ports = s.ports := hframe .ports (by decide)
    exact ⟨t, u, v, hwrite, hread, hkeep ▸ hports, nofun, fun _ => (hv rfl).trans hfield, nofun⟩
  · obtain ⟨t, hwrite, hfield, hframe⟩ := hltlen rfl hidle
    obtain ⟨u, v, hread, hports, -, -, -, -, -, hv, -⟩ := regReadReturnsMap t 4
    have hkeep : t.ports = s.ports := hframe .ports (by decide)
    exact ⟨t, u, v, hwrite, hread, hkeep ▸ hports, nofun, nofun, fun _ => (hv rfl).trans hfield⟩

/-- Settles O26: the access at the head of the agenda is performed in the state of `beginStep`. -/
theorem accessStepRunsDecodedOperation : Obligations.AccessStepRunsDecodedOperation := by
  intro s a rest i hagenda hdecode
  refine ⟨beginStep s, ?_, by rw [beginStep_agenda, hagenda, List.tail_cons], rfl, beginStep_frame s⟩
  rw [step_move hagenda]
  have hdecode' : decodeAccess (beginStep s).params a = .ok i := hdecode
  simp only [perform, performAccess, hdecode']

/-! ### The platform's writes (R100) -/

/-- The platform's write of a stream word: the word reads back, and no other element changes. -/
theorem step_placeStream {s : State} {rest : List Move} {a : Nat} {w : StreamWord}
    (hagenda : s.agenda = .placeStream a w :: rest) (ha : a < 2 ^ s.params.widxW) :
    ∃ t, step s = .next t ∧ (∀ b, streamWord t b = if b = a then w else streamWord s b) ∧
      ChangesOnly [.stream, .stale, .agenda, .ports] s t :=
  ⟨_, (step_move hagenda).trans (if_pos ha), fun _ => read_write _ _ _ _ _,
    frame_of_beginStep (setStream_frame (beginStep s) _ _) (by decide) (by decide)⟩

theorem step_placeLink_eq {s : State} {rest : List Move} {a : Nat} {e : Int}
    (hagenda : s.agenda = .placeLink a e :: rest) (ha : a < 2 ^ s.params.nodeW) (he : entryFits s.params e = true) :
    step s = .next { beginStep s with link := s.link.write a (BitVec.ofInt s.params.linkW e) } :=
  (step_move hagenda).trans ((if_pos ha).trans (if_pos he))

/-- The platform's write of a table entry: the integer reads back exactly (20_memory.md R32), no other element changes. -/
theorem step_placeLink {s : State} {rest : List Move} {a : Nat} {e : Int}
    (hagenda : s.agenda = .placeLink a e :: rest) (ha : a < 2 ^ s.params.nodeW) (he : entryFits s.params e = true) :
    ∃ t, step s = .next t ∧ entryAt t a = e ∧ (∀ b, b ≠ a → entryAt t b = entryAt s b) ∧
      ChangesOnly [.link, .agenda, .ports] s t := by
  refine ⟨_, step_placeLink_eq hagenda ha he, ?_, fun b hb => ?_,
    frame_of_beginStep (setLink_frame (beginStep s) _) (by decide) (by decide)⟩
  · exact (congrArg BitVec.toInt ((read_write _ _ _ _ _).trans (if_pos rfl))).trans (toInt_ofInt_of_fits s.params e he)
  · exact congrArg BitVec.toInt ((read_write _ _ _ _ _).trans (if_neg hb))

/-- The platform's write of an output element. -/
theorem step_placeOut {s : State} {rest : List Move} {a v : Nat} (hagenda : s.agenda = .placeOut a v :: rest)
    (ha : a < 2 ^ s.params.cntW) (hv : v < 2 ^ s.params.outW) :
    ∃ t, step s = .next t ∧ outAt t a = v ∧ OutChangesOnlyAt a s t ∧ ChangesOnly [.out, .agenda, .ports] s t := by
  refine ⟨_, (step_move hagenda).trans ((if_pos ha).trans (if_pos hv)), ?_, fun b hb => ?_,
    frame_of_beginStep (setOut_frame (beginStep s) _) (by decide) (by decide)⟩
  · exact (congrArg BitVec.toNat ((read_write _ _ _ _ _).trans (if_pos rfl))).trans (Nat.mod_eq_of_lt hv)
  · exact congrArg BitVec.toNat ((read_write _ _ _ _ _).trans (if_neg hb))

/-- Settles O27: read after write in each space. -/
theorem platformWriteReadsBack : Obligations.PlatformWriteReadsBack := by
  intro s rest a
  refine ⟨fun w hagenda ha => ?_, fun e hagenda ha he => ?_, fun v hagenda ha hv => step_placeOut hagenda ha hv⟩
  · obtain ⟨t, hstep, hread, hframe⟩ := step_placeStream hagenda ha
    exact ⟨t, hstep, (hread a).trans (if_pos rfl), fun b hb => (hread b).trans (if_neg hb), hframe⟩
  · exact step_placeLink hagenda ha he

/-- Settles O28: after the write the element at `NODE` is the new entry, and the engine's step fetches and runs it. -/
theorem rewrittenEntryRunsNext : Obligations.RewrittenEntryRunsNext := by
  intro s e rest hagenda he hbusy hmore hin
  have hstep := step_placeLink_eq hagenda s.node.isLt he
  refine ⟨_, hstep, (step_agenda hstep).trans (congrArg List.tail hagenda), fun hnext => ?_⟩
  have hentry : (s.link.write s.node.toNat (BitVec.ofInt s.params.linkW e)).read
      (Config.unwrittenLink s.params.linkW) s.node.toNat = BitVec.ofInt s.params.linkW e :=
    (read_write _ _ _ _ _).trans (if_pos rfl)
  obtain ⟨f, hfetch, hrun, hports, -⟩ :=
    engineStepRunsDecodedEntry _ _ hnext hbusy hmore hin (congrArg decodeEntry hentry)
  refine ⟨f, hfetch, ?_, hrun⟩
  rw [hports]
  exact congrArg (fun x : BitVec s.params.linkW => [PortEvent.linkRead s.node.toNat x.toNat]) hentry

/-! ### Reset and the pins (70_reset_and_hazards.md, 60_exceptions.md) -/

/-- Settles O38: the reset event is `resetEvent`, and in `IDLE` the engine has no step of its own. -/
theorem resetEventRestoresRegisters : Obligations.ResetEventRestoresRegisters := by
  intro s rest hagenda
  have hstep : step s = .next (resetEvent (beginStep s)) := step_move hagenda
  exact ⟨_, hstep, rfl, rfl, rfl, rfl, rfl, rfl, rfl, rfl, rfl, rfl, rfl, rfl,
    (step_agenda hstep).trans (congrArg List.tail hagenda), rfl, fun _ => rfl, fun _ => rfl, fun _ => rfl, rfl,
    fun hnext => ⟨_, step_engine_idle hnext nofun, beginStep_frame _⟩⟩

/-- Settles O39: the fields of `State.reset`. -/
theorem resetRegisterValues : Obligations.ResetRegisterValues := ⟨rfl, rfl, rfl, rfl, rfl, rfl, rfl, rfl, rfl⟩

/-- Settles O40: each pin compares `STATE` with its own value. -/
theorem pinsShowState : Obligations.PinsShowState := by
  intro s
  cases hs : s.status <;> simp [busyPin, donePin, faultPin, hs]

/-! ### The stops (notes/assumptions/7.md) -/

/-- The engine's turn always completes. -/
theorem engineTurn_completes (s : State) : ∃ t, engineTurn s = .next t := by
  by_cases hbusy : s.status = .busy
  · obtain ⟨t, ht, -⟩ := engineStep_outcome s
    exact ⟨t, (if_pos hbusy).trans ht⟩
  · exact ⟨s, if_neg hbusy⟩

/-- A register access that fits the port completes (R54, R95). -/
theorem performAccess_completes_or (a : RegAccess) (s : State) :
    (∃ t, performAccess a s = .next t) ∨
    (∃ n d, a = .write n d ∧ 2 ^ s.params.regW ≤ d ∧ performAccess a s = .refused (.valueDoesNotFit none)) := by
  cases hdecode : decodeAccess s.params a with
  | ok i =>
    obtain ⟨t, ht⟩ := everyOperationCompletes i s
    exact .inl ⟨t, by simp only [performAccess, hdecode, ht]⟩
  | error r =>
    cases a with
    | read n => cases hdecode
    | write n d =>
      refine .inr ⟨n, d, rfl, ?_, by simp only [performAccess, hdecode]⟩
      by_contra hfits
      simp only [decodeAccess, Nat.not_le.mp hfits, if_true] at hdecode
      split_ifs at hdecode

/-- Settles O43: each move by its own tests. -/
theorem stopsOnlyOnMisuse : Obligations.StopsOnlyOnMisuse := by
  intro s
  have hstep : step s = perform (nextMove s) (beginStep s) := rfl
  rw [hstep]
  cases nextMove s with
  | engine => exact .inl (engineTurn_completes _)
  | access a =>
    rcases performAccess_completes_or a (beginStep s) with hok | ⟨n, d, rfl, hwide, hx⟩
    · exact .inl hok
    · exact .inr (.inl ⟨n, d, rfl, hwide, hx⟩)
  | reset => exact .inl ⟨_, rfl⟩
  | placeStream a w =>
    by_cases ha : a < 2 ^ s.params.widxW
    · exact .inl ⟨_, if_pos ha⟩
    · exact .inr (.inr (.inl ⟨a, w, rfl, Nat.not_lt.mp ha, if_neg ha⟩))
  | placeLink a e =>
    refine (?_ : _ ∨ _).imp_right fun h => .inr (.inr (.inl ⟨a, e, rfl, h⟩))
    by_cases ha : a < 2 ^ s.params.nodeW
    · by_cases he : entryFits s.params e = true
      · exact .inl ⟨_, (if_pos ha).trans (if_pos he)⟩
      · exact .inr (.inr ⟨Bool.not_eq_true _ ▸ he, (if_pos ha).trans (if_neg he)⟩)
    · exact .inr (.inl ⟨Nat.not_lt.mp ha, if_neg ha⟩)
  | placeOut a v =>
    refine (?_ : _ ∨ _).imp_right fun h => .inr (.inr (.inr ⟨a, v, rfl, h⟩))
    by_cases ha : a < 2 ^ s.params.cntW
    · by_cases hv : v < 2 ^ s.params.outW
      · exact .inl ⟨_, (if_pos ha).trans (if_pos hv)⟩
      · exact .inr (.inr ⟨Nat.not_lt.mp hv, (if_pos ha).trans (if_neg hv)⟩)
    · exact .inr (.inl ⟨Nat.not_lt.mp ha, if_neg ha⟩)

end Sys2Proof.Machine
end

section
/-! PROOFS. The invariant (10_state.md R17, R29): it holds after reset, every step keeps it, and it settles the registers
in which a decode ends. -/

namespace Sys2Proof.Machine

/-- Settles O48: nothing is written, no cause stands, and no decode runs. -/
theorem resetMeetsInvariant : Obligations.ResetMeetsInvariant := fun _ =>
  ⟨⟨wf_nil _, wf_nil _, wf_nil _⟩, ⟨fun h => absurd rfl h, nofun⟩, nofun⟩

/-- Every move keeps the memories in canonical form: each write lies at an index of its space (20_memory.md R31 to
R33). -/
theorem perform_memoriesOk {m : Move} {s t : State} (h : perform m s = .next t) (hmem : MemoriesOk s) :
    MemoriesOk t := by
  obtain ⟨hstream, hlink, hout⟩ := hmem
  rcases perform_cases h with ⟨-, -, hx⟩ | ⟨-, -, rfl⟩ | ⟨n, d, -, rfl⟩ | ⟨n, -, rfl⟩ | ⟨-, rfl⟩ | ⟨a, w, -, ha, rfl⟩ |
    ⟨a, e, -, ha, rfl⟩ | ⟨a, v, -, ha, rfl⟩
  · exact (engineStep_inv hx).2 ⟨hstream, hlink, hout⟩
  · exact ⟨hstream, hlink, hout⟩
  · rcases writeReg_cases n d s with ⟨-, -, hx⟩ | hx | ⟨-, -, hx⟩ | ⟨-, -, hx⟩ | ⟨-, -, hx⟩ <;> rw [hx]
    · rcases startDecode_cases s with ⟨-, hy⟩ | ⟨-, hy⟩ <;> rw [hy] <;> exact ⟨hstream, hlink, hout⟩
    all_goals exact ⟨hstream, hlink, hout⟩
  · exact ⟨hstream, hlink, hout⟩
  · exact ⟨hstream, hlink, hout⟩
  · exact ⟨wf_write hstream ha, hlink, hout⟩
  · exact ⟨hstream, wf_write hlink ha, hout⟩
  · exact ⟨hstream, hlink, wf_write hout ha⟩

/-- The rules of R29 are about six registers. -/
theorem DecodeInv.congr {ps : List Part} {s t : State} (hinv : DecodeInv s) (h : ChangesOnly ps s t)
    (hps : ∀ p ∈ [Part.wordi, .hxsz, .biti, .prod, .xsz, .node], p ∉ ps) : DecodeInv t := by
  have hwordi : t.wordi.toNat = s.wordi.toNat := h .wordi (hps _ (by decide))
  have hhxsz : t.hxsz.toNat = s.hxsz.toNat := h .hxsz (hps _ (by decide))
  have hbiti : t.biti = s.biti := h .biti (hps _ (by decide))
  have hprod : t.prod.toNat = s.prod.toNat := h .prod (hps _ (by decide))
  have hxsz : t.xsz.toNat = s.xsz.toNat := h .xsz (hps _ (by decide))
  have hnode : t.node.toNat = s.node.toNat := h .node (hps _ (by decide))
  refine ⟨?_, ?_, ?_, ?_⟩ <;> simp only [hwordi, hhxsz, hbiti, hprod, hxsz, hnode]
  exacts [hinv.cursor_le, hinv.prod_le, hinv.at_end, hinv.at_exit]

/-- R29 items 1, 3 and 6 with the bit number as an integer. -/
theorem DecodeInv.registers {s : State} (hinv : DecodeInv s) :
    s.wordi.toNat ≤ s.hxsz.toNat ∧ s.prod.toNat ≤ s.xsz.toNat ∧ (s.wordi.toNat = s.hxsz.toNat → s.biti.toNat = 15) :=
  ⟨hinv.cursor_le, hinv.prod_le, fun hend => congrArg BitVec.toNat (hinv.at_end hend)⟩

/-- No cause stands while a decode runs (R17). -/
theorem Inv.cause_of_busy {s : State} (hinv : Inv s) (hbusy : s.status = .busy) : s.cause = .none := by
  by_contra hcause
  have hfault := hinv.cause_iff.mp hcause
  simp [hbusy] at hfault

/-- R29 after a link step with a bit left: the cursor leaves the last word with bit 15 only. -/
theorem DecodeInv.of_cursor_moved {s t : State} (hinv : DecodeInv s) (hmore : s.prod.toNat < s.xsz.toNat)
    (hleft : s.wordi.toNat < s.hxsz.toNat) (hbiti : t.biti = if s.biti = 0 then 15 else s.biti - 1)
    (hwordi : t.wordi.toNat = if s.biti = 0 then s.wordi.toNat + 1 else s.wordi.toNat)
    (hframe : ChangesOnly [.node, .biti, .wordi, .stale, .draws, .ports] s t) : DecodeInv t := by
  have hprod : t.prod.toNat = s.prod.toNat := hframe .prod (by decide)
  have hxsz : t.xsz.toNat = s.xsz.toNat := hframe .xsz (by decide)
  have hhxsz : t.hxsz.toNat = s.hxsz.toNat := hframe .hxsz (by decide)
  have hle := hinv.prod_le
  split_ifs at hbiti hwordi
  · exact ⟨by omega, by omega, fun _ => hbiti, fun hexit => by omega⟩
  · exact ⟨by omega, by omega, fun hend => by omega, fun hexit => by omega⟩

/-- The engine's steps keep R17 and R29. -/
theorem EngineOutcome.keeps_inv {s t : State} (hout : EngineOutcome s t) (hmem : MemoriesOk t) (hinv : Inv s)
    (hbusy : s.status = .busy) : Inv t := by
  have hcause := hinv.cause_of_busy hbusy
  have hdecode := hinv.decode hbusy
  cases hout with
  | exit _ hstatus _ hframe =>
    have hkeep : t.cause = s.cause := hframe .cause (by decide)
    exact ⟨hmem, by simp [hkeep, hcause, hstatus], by simp [hstatus]⟩
  | offTable _ _ hstatus hraised | dry _ _ _ _ hstatus hraised =>
    exact ⟨hmem, by simp [hstatus, hraised], by simp [hstatus]⟩
  | leaf hmore _ _ hnode hprod _ _ hframe =>
    have hkeep : t.cause = s.cause := hframe .cause (by decide)
    have hstatus : t.status = s.status := hframe .status (by decide)
    have hwordi : t.wordi.toNat = s.wordi.toNat := hframe .wordi (by decide)
    have hbiti : t.biti = s.biti := hframe .biti (by decide)
    have hhxsz : t.hxsz.toNat = s.hxsz.toNat := hframe .hxsz (by decide)
    have hxsz : t.xsz.toNat = s.xsz.toNat := hframe .xsz (by decide)
    refine ⟨hmem, by simp [hkeep, hcause, hstatus, hbusy], fun _ => ⟨?_, by omega, ?_, fun _ => hnode⟩⟩
    · rw [hwordi, hhxsz]
      exact hdecode.cursor_le
    · rw [hwordi, hhxsz, hbiti]
      exact hdecode.at_end
  | link hmore _ _ hleft _ hbiti hwordi _ _ _ _ hframe =>
    have hkeep : t.cause = s.cause := hframe .cause (by decide)
    have hstatus : t.status = s.status := hframe .status (by decide)
    exact ⟨hmem, by simp [hkeep, hcause, hstatus, hbusy],
      fun _ => hdecode.of_cursor_moved hmore hleft hbiti hwordi hframe⟩

/-- A move that keeps `STATE`, `CAUSE` and the registers of R29 keeps the invariant. -/
theorem Inv.congr {ps : List Part} {s t : State} (hinv : Inv s) (hmem : MemoriesOk t) (h : ChangesOnly ps s t)
    (hps : ∀ p ∈ [Part.wordi, .hxsz, .biti, .prod, .xsz, .node], p ∉ ps) (hstatus : .status ∉ ps)
    (hcause : .cause ∉ ps) : Inv t := by
  have hs : t.status = s.status := h .status hstatus
  have hc : t.cause = s.cause := h .cause hcause
  exact ⟨hmem, by rw [hs, hc]; exact hinv.cause_iff, fun hbusy => (hinv.decode (hs.symm.trans hbusy)).congr h hps⟩

/-- Every effect of a move keeps the invariant, once the memories are in form. -/
theorem MoveEffect.keeps_inv {m : Move} {s t : State} (heff : MoveEffect m s t) (hmem : MemoriesOk t)
    (hinv : Inv s) : Inv t := by
  cases heff with
  | engine _ hbusy hout => exact hout.keeps_inv hmem hinv hbusy
  | quiet _ hframe | stream _ _ _ _ hframe | link _ _ _ hframe | out _ _ _ hframe =>
    exact hinv.congr hmem hframe (by decide) (by decide) (by decide)
  | start _ _ hidle hresult =>
    obtain ⟨hnode, hbiti, hwordi, hprod, hcause, hstatus, -⟩ := startDecode_registers hidle
    subst hresult
    exact ⟨hmem, by simp [hcause, hstatus],
      fun _ => ⟨by omega, by omega, fun _ => BitVec.eq_of_toNat_eq hbiti, fun _ => hnode⟩⟩
  | operand _ _ _ hidle hframe =>
    have hstatus : t.status = s.status := hframe .status (by decide)
    have hcause : t.cause = s.cause := hframe .cause (by decide)
    exact ⟨hmem, by rw [hstatus, hcause]; exact hinv.cause_iff, fun hbusy => absurd (hstatus.symm.trans hbusy) hidle⟩
  | reset _ hresult =>
    subst hresult
    exact ⟨hmem, by simp, by simp⟩

theorem Inv.beginStep {s : State} (hinv : Inv s) : Inv (beginStep s) :=
  hinv.congr hinv.memories (beginStep_frame s) (by decide) (by decide) (by decide)

/-- Settles O49: the memories by `perform_memoriesOk`, the registers by the effect of the move. -/
theorem stepKeepsInvariant : Obligations.StepKeepsInvariant := fun _ _ hinv hstep =>
  (step_effect hstep).keeps_inv (perform_memoriesOk hstep hinv.memories) hinv.beginStep

/-- Settles O37: the loop exit and fault entry keep the registers of R29, whose rules held before; reset clears them. -/
theorem decodeEndsWithConsistentRegisters : Obligations.DecodeEndsWithConsistentRegisters := by
  intro s t hinv hbusy hstep hend
  have hcause := hinv.cause_of_busy hbusy
  have stays {ps : List Part} (h : ChangesOnly ps (beginStep s) t)
      (hps : ∀ p ∈ [Part.wordi, .hxsz, .biti, .prod, .xsz, .node], p ∉ ps) : DecodeInv t :=
    (hinv.beginStep.decode hbusy).congr h hps
  have goesOn (h : Same (beginStep s) t .status) : False := hend (Eq.trans h hbusy)
  cases step_effect hstep with
  | engine _ _ hout =>
    cases hout with
    | exit hexit hstatus _ hframe =>
      have hdecode := stays hframe (by decide)
      obtain ⟨hcursor, hprodLe, hbiti⟩ := hdecode.registers
      have hnone : t.cause = .none := Eq.trans (hframe .cause (by decide)) hcause
      have hprod : t.prod.toNat = s.prod.toNat := hframe .prod (by decide)
      have hxsz : t.xsz.toNat = s.xsz.toNat := hframe .xsz (by decide)
      have hge : t.xsz.toNat ≤ t.prod.toNat := by rw [hprod, hxsz]; exact hexit
      exact ⟨hcursor, hprodLe, hbiti, fun _ => ⟨Nat.le_antisymm hprodLe hge, hdecode.at_exit hge, hnone⟩,
        by simp [hnone], by simp [hnone]⟩
    | offTable _ hoff hstatus hraised _ hframe =>
      obtain ⟨hcursor, hprodLe, hbiti⟩ := (stays hframe (by decide)).registers
      have hnode : t.node.toNat = s.node.toNat := hframe .node (by decide)
      have hltlen : t.ltlen.toNat = s.ltlen.toNat := hframe .ltlen (by decide)
      exact ⟨hcursor, hprodLe, hbiti, by simp [hstatus],
        by simp [hraised], fun _ => by rw [hnode, hltlen]; exact hoff⟩
    | dry _ _ _ hempty hstatus hraised _ hframe =>
      obtain ⟨hcursor, hprodLe, hbiti⟩ := (stays hframe (by decide)).registers
      have hwordi : t.wordi.toNat = s.wordi.toNat := hframe .wordi (by decide)
      have hhxsz : t.hxsz.toNat = s.hxsz.toNat := hframe .hxsz (by decide)
      have hge : t.hxsz.toNat ≤ t.wordi.toNat := by rw [hwordi, hhxsz]; exact hempty
      exact ⟨hcursor, hprodLe, hbiti, by simp [hstatus],
        fun _ => Nat.le_antisymm hcursor hge, by simp [hraised]⟩
    | leaf _ _ _ _ _ _ _ hframe | link _ _ _ _ _ _ _ _ _ _ _ hframe => exact (goesOn (hframe .status (by decide))).elim
  | quiet _ hframe | operand _ _ _ _ hframe | stream _ _ _ _ hframe | link _ _ _ hframe | out _ _ _ hframe =>
    exact (goesOn (hframe .status (by decide))).elim
  | start _ _ hidle => exact absurd hbusy hidle
  | reset _ hresult =>
    subst hresult
    exact ⟨Nat.le_refl 0, Nat.le_refl 0, fun _ => rfl, nofun, nofun, nofun⟩

end Sys2Proof.Machine
end

section
/-! PROOFS. Bounds on runs: how many steps a decode takes (40_sequencing.md R71), whatever the agents' order, and how long
a word can be stale (93_implementation_defined.md U8). -/

namespace Sys2Proof.Machine

/-! ### The steps left in a decode -/

theorem stepsLeft_of_busy {s : State} (hbusy : s.status = .busy) :
    stepsLeft s = 16 * s.hxsz.toNat - bitsConsumed s + (s.xsz.toNat - s.prod.toNat) + 1 := if_pos hbusy

theorem stepsLeft_of_not_busy {s : State} (hidle : s.status ≠ .busy) : stepsLeft s = 0 := if_neg hidle

theorem stepsLeft_pos_iff (s : State) : 0 < stepsLeft s ↔ s.status = .busy := by
  by_cases hbusy : s.status = .busy
  · simp [stepsLeft_of_busy hbusy, hbusy]
  · simp [stepsLeft_of_not_busy hbusy, hbusy]

theorem stepsLeft_startDecode {s : State} (hidle : s.status ≠ .busy) :
    stepsLeft (startDecode s) = 16 * s.hxsz.toNat + s.xsz.toNat + 1 := by
  rw [startDecode_of_idle hidle]
  exact stepsLeft_of_busy rfl

/-- A bit is left exactly when fewer bits are consumed than the stream has (R29 item 4). -/
theorem bitsConsumed_lt_iff (s : State) : bitsConsumed s < 16 * s.hxsz.toNat ↔ s.wordi.toNat < s.hxsz.toNat := by
  have hbiti := bitIndex_le s.biti
  rw [bitsConsumed]
  omega

/-- The measure is one of `STATE`, the cursor, `PROD` and two operands. -/
theorem stepsLeft_congr {ps : List Part} {s t : State} (h : ChangesOnly ps s t)
    (hps : ∀ p ∈ [Part.status, .wordi, .biti, .prod, .hxsz, .xsz], p ∉ ps) : stepsLeft t = stepsLeft s := by
  have hstatus : t.status = s.status := h .status (hps _ (by decide))
  have hprod : t.prod.toNat = s.prod.toNat := h .prod (hps _ (by decide))
  have hhxsz : t.hxsz.toNat = s.hxsz.toNat := h .hxsz (hps _ (by decide))
  have hxsz : t.xsz.toNat = s.xsz.toNat := h .xsz (hps _ (by decide))
  rw [stepsLeft, stepsLeft, hstatus, hprod, hhxsz, hxsz,
    bitsConsumed_congr (h .biti (hps _ (by decide))) (h .wordi (hps _ (by decide)))]

/-- R71: each engine step ends the decode, or uses up a symbol or a bit. -/
theorem EngineOutcome.stepsLeft_lt {s t : State} (hout : EngineOutcome s t) (hbusy : s.status = .busy) :
    stepsLeft t < stepsLeft s := by
  cases hout with
  | exit _ hstatus | offTable _ _ hstatus | dry _ _ _ _ hstatus =>
    rw [stepsLeft_of_not_busy (by simp [hstatus])]
    exact (stepsLeft_pos_iff s).mpr hbusy
  | leaf hmore _ _ _ hprod _ _ hframe =>
    have hstatus : t.status = s.status := hframe .status (by decide)
    have hhxsz : t.hxsz.toNat = s.hxsz.toNat := hframe .hxsz (by decide)
    have hxsz : t.xsz.toNat = s.xsz.toNat := hframe .xsz (by decide)
    have hconsumed := bitsConsumed_congr (hframe .biti (by decide)) (hframe .wordi (by decide))
    rw [stepsLeft_of_busy hbusy, stepsLeft_of_busy (hstatus.trans hbusy)]
    omega
  | link _ _ _ hleft _ _ _ hconsumed _ _ _ hframe =>
    have hstatus : t.status = s.status := hframe .status (by decide)
    have hhxsz : t.hxsz.toNat = s.hxsz.toNat := hframe .hxsz (by decide)
    have hxsz : t.xsz.toNat = s.xsz.toNat := hframe .xsz (by decide)
    have hprod : t.prod.toNat = s.prod.toNat := hframe .prod (by decide)
    have hbit := (bitsConsumed_lt_iff s).mpr hleft
    rw [stepsLeft_of_busy hbusy, stepsLeft_of_busy (hstatus.trans hbusy)]
    omega

/-- In a running decode the engine's step lowers the measure, reset ends the decode, and every other move keeps it. -/
theorem MoveEffect.stepsLeft_le {m : Move} {s t : State} (heff : MoveEffect m s t) (hbusy : s.status = .busy) :
    (m = .engine → stepsLeft t < stepsLeft s) ∧ stepsLeft t ≤ stepsLeft s := by
  cases heff with
  | engine _ _ hout =>
    have hlt := hout.stepsLeft_lt hbusy
    exact ⟨fun _ => hlt, hlt.le⟩
  | quiet hidle hframe =>
    exact ⟨fun hm => absurd hbusy (hidle hm), (stepsLeft_congr hframe (by decide)).le⟩
  | start _ _ hidle | operand _ _ _ hidle => exact absurd hbusy hidle
  | reset hm hresult =>
    subst hm hresult
    exact ⟨nofun, by rw [stepsLeft_of_not_busy (by simp)]; exact Nat.zero_le _⟩
  | stream _ _ hm _ hframe | link _ _ hm hframe | out _ _ hm hframe =>
    subst hm
    exact ⟨nofun, (stepsLeft_congr hframe (by decide)).le⟩

/-- The record of the ports and the agenda are no part of the measure. -/
theorem stepsLeft_beginStep (s : State) : stepsLeft (beginStep s) = stepsLeft s :=
  stepsLeft_congr (beginStep_frame s) (by decide)

/-- Settles O50: by the effect of each move, and by the registers after `START`. -/
theorem stepsLeftFall : Obligations.StepsLeftFall := by
  refine ⟨fun s t hstep hbusy => ?_, fun s => ⟨stepsLeft_startDecode, stepsLeft_pos_iff s⟩⟩
  rw [← stepsLeft_beginStep s]
  exact (step_effect hstep).stepsLeft_le hbusy

/-! ### Every order of the agents -/

/-- The engine's moves among the next ones, from the first of them on. -/
theorem engineMoves_succ (k : Nat) (s : State) :
    engineMoves (k + 1) s.agenda = engineMoves k s.agenda.tail + if nextMove s = .engine then 1 else 0 := by
  cases hagenda : s.agenda with
  | nil => simp [engineMoves, nextMove, hagenda]
  | cons m rest => simp [engineMoves, nextMove, hagenda]

/-- R71 along a run: the engine's moves in it and the steps left after it are at most the steps left before it. -/
theorem engineMoves_add_stepsLeft_le {k : Nat} {s t : State} (hrun : after k s = .next t)
    (hbusy : ∀ i u, i < k → after i s = .next u → u.status = .busy) :
    engineMoves k s.agenda + stepsLeft t ≤ stepsLeft s := by
  induction k generalizing s with
  | zero =>
    cases hrun
    simp [engineMoves]
  | succ k ih =>
    obtain ⟨u, hstep, hrest⟩ := after_succ_next hrun
    have hnow : s.status = .busy := hbusy 0 s (Nat.succ_pos k) rfl
    have hlater := ih hrest fun i v hi hv => hbusy (i + 1) v (Nat.succ_lt_succ hi) ((after_succ i hstep).trans hv)
    obtain ⟨hfall, hle⟩ := stepsLeftFall.1 s u hstep hnow
    rw [step_agenda hstep] at hlater
    rw [engineMoves_succ]
    split_ifs with hengine
    · have hlt := hfall hengine
      omega
    · omega

/-- Settles O51: the run's bound, with the steps left after `START`; when all of them are taken none is left. -/
theorem decodeTakesBoundedEngineSteps : Obligations.DecodeTakesBoundedEngineSteps := by
  intro s t k hidle hrun hbusy
  have hbound := engineMoves_add_stepsLeft_le hrun hbusy
  have hagenda : (startDecode s).agenda = s.agenda := startDecode_frame s .agenda (by decide)
  rw [stepsLeft_startDecode hidle, hagenda] at hbound
  refine ⟨by omega, fun hall hstill => ?_⟩
  have hpos := (stepsLeft_pos_iff t).mpr hstill
  omega

/-! ### The engine alone -/

/-- An engine step leaves a decode running, done, or faulted. -/
theorem EngineOutcome.status_cases {s t : State} (hout : EngineOutcome s t) (hbusy : s.status = .busy) :
    t.status = .busy ∨ t.status = .done ∨ t.status = .fault := by
  cases hout with
  | exit _ hstatus => exact .inr (.inl hstatus)
  | offTable _ _ hstatus | dry _ _ _ _ hstatus => exact .inr (.inr hstatus)
  | leaf _ _ _ _ _ _ _ hframe | link _ _ _ _ _ _ _ _ _ _ _ hframe =>
    exact .inl (Eq.trans (hframe .status (by decide)) hbusy)

/-- The engine alone ends a running decode in at most as many steps as are left. -/
theorem exists_end_of_busy {s : State} (hagenda : s.agenda = []) (hbusy : s.status = .busy) :
    ∃ k t, k ≤ stepsLeft s ∧ after k s = .next t ∧ (t.status = .done ∨ t.status = .fault) := by
  obtain ⟨t, hstep, hout⟩ := step_engine_outcome (nextMove_nil hagenda) hbusy
  have hlt : stepsLeft t < stepsLeft s := (stepsLeftFall.1 s t hstep hbusy).1 (nextMove_nil hagenda)
  rcases hout.status_cases hbusy with hgoesOn | hend
  · have hagenda' : t.agenda = [] := (step_agenda hstep).trans (by rw [hagenda, List.tail_nil])
    obtain ⟨k, u, hk, hrun, hend⟩ := exists_end_of_busy hagenda' hgoesOn
    exact ⟨k + 1, u, by omega, (after_succ k hstep).trans hrun, hend⟩
  · exact ⟨1, t, by omega, after_succ 0 hstep, hend⟩
termination_by stepsLeft s

/-- Settles O52: `START` leaves `16 * HXSZ + XSZ + 1` steps. -/
theorem decodeEndsWithinBound : Obligations.DecodeEndsWithinBound := by
  intro s hagenda hidle
  obtain ⟨-, -, -, -, -, hbusy, -⟩ := startDecode_registers hidle
  rw [← stepsLeft_startDecode hidle]
  exact exists_end_of_busy (Eq.trans (startDecode_frame s .agenda (by decide)) hagenda) hbusy

/-! ### How long a word is stale (U8) -/

/-- While a record of earlier contents stays, each stream read uses up one bit of the current word. -/
theorem MoveEffect.draws_cases {m : Move} {s t : State} (heff : MoveEffect m s t) :
    (t.stale = [] ∧ t.draws ≤ s.draws + 1) ∨ t.draws + t.biti.toNat = s.draws + s.biti.toNat := by
  have stays {ps : List Part} (h : ChangesOnly ps s t) (hdraws : .draws ∉ ps) (hbiti : .biti ∉ ps) :
      t.draws + t.biti.toNat = s.draws + s.biti.toNat :=
    congrArg₂ (fun d (b : BitIndex) => d + b.toNat) (h .draws hdraws) (h .biti hbiti)
  cases heff with
  | engine _ _ hout =>
    cases hout with
    | exit _ _ _ hframe | offTable _ _ _ _ _ hframe | leaf _ _ _ _ _ _ _ hframe | dry _ _ _ _ _ _ _ hframe =>
      exact .inr (stays hframe (by decide) (by decide))
    | link _ _ _ _ _ hbiti _ _ _ hstale hdraws =>
      split_ifs at hbiti hstale with hwrap
      · exact .inl ⟨hstale, hdraws.le⟩
      · have hsub := bitIndex_sub_one hwrap
        have hpos := mt bitIndex_eq_zero_iff.mpr hwrap
        rw [hbiti, hdraws]
        omega
  | quiet _ hframe | operand _ _ _ _ hframe | stream _ _ _ _ hframe | link _ _ _ hframe | out _ _ _ hframe =>
    exact .inr (stays hframe (by decide) (by decide))
  | start _ _ hidle hresult =>
    have hdraws : (startDecode s).draws = s.draws := startDecode_frame s .draws (by decide)
    obtain ⟨-, -, -, -, -, -, hfresh⟩ := startDecode_registers hidle
    subst hresult
    exact .inl ⟨hfresh, by omega⟩
  | reset _ hresult =>
    subst hresult
    exact .inl ⟨rfl, Nat.le_succ _⟩

/-- Settles O31: by induction on the run; the step that empties the record is its last one. -/
theorem staleWordLastsSixteenBits : Obligations.StaleWordLastsSixteenBits := by
  intro s t k hrun hstale
  have hbiti := bitIndex_le s.biti
  refine ⟨?_, by omega⟩
  induction k generalizing s with
  | zero =>
    cases hrun
    omega
  | succ k ih =>
    obtain ⟨u, hstep, hrest⟩ := after_succ_next hrun
    have hlater (i : Nat) (v : State) (hi : i < k) (hv : after i u = .next v) : v.stale ≠ [] :=
      hstale (i + 1) v (Nat.succ_lt_succ hi) ((after_succ i hstep).trans hv)
    rcases (step_effect hstep).draws_cases with ⟨hempty, hdraws⟩ | hsum
    · cases k with
      | zero =>
        cases hrest
        exact hdraws.trans (by simp)
      | succ k => exact absurd hempty (hlater 0 u (Nat.succ_pos k) rfl)
    · have hrest' := ih u hrest hlater (bitIndex_le u.biti)
      have hsum' : u.draws + u.biti.toNat = s.draws + s.biti.toNat := hsum
      omega

end Sys2Proof.Machine
end

section
/-! PROOFS. Decodes of the engine alone, from tables and codewords (30_encoding.md): what a running decode takes from its
inputs, that a codeword and a message come out as their symbols, and a leaf at the root. -/

namespace Sys2Proof.Machine

/-! ### The inputs of a decode (40_sequencing.md R73) -/

theorem SameInputs.refl (s : State) : SameInputs s s := ⟨rfl, rfl, rfl, rfl, fun _ _ => rfl, fun _ _ => rfl⟩

theorem SameInputs.trans {s t u : State} (h : SameInputs s t) (h' : SameInputs t u) : SameInputs s u where
  params := h'.params.trans h.params
  xsz := h'.xsz.trans h.xsz
  hxsz := h'.hxsz.trans h.hxsz
  ltlen := h'.ltlen.trans h.ltlen
  stream := fun a ha => (h'.stream a (h.hxsz ▸ ha)).trans (h.stream a ha)
  link := fun a ha => (h'.link a (h.ltlen ▸ ha)).trans (h.link a ha)

/-- The parts of a state from which a decode takes its inputs. -/
def inputParts : List Part := [.params, .xsz, .hxsz, .ltlen, .stream, .link]

/-- A change of other parts leaves the inputs. -/
theorem SameInputs.of_frame {ps : List Part} {s t : State} (h : ChangesOnly ps s t)
    (hps : ∀ p ∈ inputParts, p ∉ ps) : SameInputs s t where
  params := h .params (hps _ (by decide))
  xsz := h .xsz (hps _ (by decide))
  hxsz := h .hxsz (hps _ (by decide))
  ltlen := h .ltlen (hps _ (by decide))
  stream := fun a _ => h .stream (hps _ (by decide)) a
  link := fun a _ => h .link (hps _ (by decide)) a

/-- The signed integer at a node of the table is an input. -/
theorem SameInputs.entryAt_eq {s t : State} (h : SameInputs s t) {n : Nat} (hn : n < s.ltlen.toNat) :
    entryAt t n = entryAt s n := by
  have hwidth : t.params.linkW = s.params.linkW := congrArg Params.linkW h.params
  rw [entryAt, entryAt, BitVec.toInt_eq_toNat_cond, BitVec.toInt_eq_toNat_cond, h.link n hn, hwidth]

/-- So is each bit of the stream. -/
theorem SameInputs.bitAt_eq {s t : State} (h : SameInputs s t) {k : Nat} (hk : k < 16 * s.hxsz.toNat) :
    bitAt t k = bitAt s k := by
  rw [bitAt, bitAt, streamBit, streamBit, h.stream _ (by omega)]

/-- `START` leaves the inputs. -/
theorem sameInputs_startDecode (s : State) : SameInputs s (startDecode s) :=
  .of_frame (startDecode_frame s) (by decide)

theorem sameInputs_beginStep (s : State) : SameInputs s (beginStep s) := .of_frame (beginStep_frame s) (by decide)

/-- An engine step leaves the inputs. -/
theorem EngineOutcome.sameInputs {s t : State} (h : EngineOutcome s t) : SameInputs s t :=
  .of_frame h.frame (by decide)

theorem bitsConsumed_startDecode {s : State} (hidle : s.status ≠ .busy) : bitsConsumed (startDecode s) = 0 := by
  obtain ⟨-, hbiti, hwordi, -⟩ := startDecode_registers hidle
  rw [bitsConsumed, hbiti, hwordi]

/-! ### Steps of the engine alone -/

/-- A running decode with no other move to come and nothing stale. -/
structure RunsAlone (s : State) : Prop where
  agenda : s.agenda = []
  busy : s.status = .busy
  fresh : s.stale = []

theorem RunsAlone.congr {ps : List Part} {s t : State} (hs : RunsAlone s) (h : ChangesOnly ps s t)
    (hps : ∀ p ∈ [Part.agenda, .status, .stale], p ∉ ps) : RunsAlone t where
  agenda := Eq.trans (h .agenda (hps _ (by decide))) hs.agenda
  busy := Eq.trans (h .status (hps _ (by decide))) hs.busy
  fresh := Eq.trans (h .stale (hps _ (by decide))) hs.fresh

theorem runsAlone_startDecode {s : State} (hagenda : s.agenda = []) (hidle : s.status ≠ .busy) :
    RunsAlone (startDecode s) := by
  obtain ⟨-, -, -, -, -, hbusy, hfresh⟩ := startDecode_registers hidle
  exact ⟨Eq.trans (startDecode_frame s .agenda (by decide)) hagenda, hbusy, hfresh⟩

/-- A part that comes out as before need not be listed as changed. -/
theorem ChangesOnly.of_same {p : Part} {ps : List Part} {s t : State} (h : ChangesOnly (p :: ps) s t)
    (hp : Same s t p) : ChangesOnly ps s t := by
  intro q hq
  by_cases hqp : q = p
  · exact hqp ▸ hp
  · exact h q (by simp [hqp, hq])

/-- With no move to come the agenda is as before a step. -/
theorem same_agenda_of_step {s t : State} (hagenda : s.agenda = []) (hstep : step s = .next t) : Same s t .agenda := by
  have htail : t.agenda = s.agenda.tail := step_agenda hstep
  rwa [hagenda, List.tail_nil, ← hagenda] at htail

/-- The engine's link step when it runs alone: the child of the stream's next bit (R80). -/
theorem RunsAlone.step_link {s : State} (hs : RunsAlone s) (hmore : s.prod.toNat < s.xsz.toNat)
    (hin : s.node.toNat < s.ltlen.toNat) (hlink : 0 < entryAt s s.node.toNat)
    (hbit : bitsConsumed s < 16 * s.hxsz.toNat) :
    ∃ t, step s = .next t ∧ bitsConsumed t = bitsConsumed s + 1 ∧
      t.node.toNat = childOf (entryAt s s.node.toNat).toNat (bitAt s (bitsConsumed s)) ∧
      ChangesOnly [.node, .biti, .wordi, .draws, .ports] s t := by
  obtain ⟨t, hstep, hconsumed, hnode, hstale, hframe⟩ :=
    Machine.step_link (nextMove_nil hs.agenda) hs.busy hmore hin hlink ((bitsConsumed_lt_iff s).mp hbit)
  rw [engineBit_of_fresh hs.fresh] at hnode
  have hfresh : Same s t .stale := by
    rw [hs.fresh, ite_self] at hstale
    exact hstale.trans hs.fresh.symm
  have hperm : ChangesOnly [.stale, .agenda, .node, .biti, .wordi, .draws, .ports] s t := hframe.mono (by decide)
  exact ⟨t, hstep, hconsumed, hnode, (hperm.of_same hfresh).of_same (same_agenda_of_step hs.agenda hstep)⟩

/-- The engine's leaf step when it runs alone: the symbol of the entry goes out at `PROD` (R81, R82). -/
theorem RunsAlone.step_leaf {s : State} (hs : RunsAlone s) (hmore : s.prod.toNat < s.xsz.toNat)
    (hin : s.node.toNat < s.ltlen.toNat) (hleaf : entryAt s s.node.toNat ≤ 0) :
    ∃ t, step s = .next t ∧ t.node.toNat = 0 ∧ t.prod.toNat = s.prod.toNat + 1 ∧
      (outAt t s.prod.toNat : Int) = -entryAt s s.node.toNat ∧ OutChangesOnlyAt s.prod.toNat s t ∧
      ChangesOnly [.node, .prod, .out, .ports] s t := by
  obtain ⟨t, hstep, hout⟩ := step_engine_outcome (nextMove_nil hs.agenda) hs.busy
  cases hout with
  | leaf _ _ _ hnode hprod hsymbols _ hframe =>
    have hsymbol : (outAt t s.prod.toNat : Int) = -entryAt s s.node.toNat :=
      (congrArg Nat.cast ((hsymbols _).trans (if_pos rfl))).trans (negN_toInt _ hleaf)
    have hframe' : ChangesOnly [.agenda, .node, .prod, .out, .ports] s t :=
      frame_of_beginStep hframe (by decide) (by decide)
    exact ⟨t, hstep, hnode, hprod, hsymbol, fun b hb => (hsymbols b).trans (if_neg hb),
      hframe'.of_same (same_agenda_of_step hs.agenda hstep)⟩
  | exit hexit => exact absurd hmore (Nat.not_lt.mpr hexit)
  | offTable _ hoff => exact absurd hin (Nat.not_lt.mpr hoff)
  | link _ _ hlink | dry _ _ hlink => exact absurd hleaf (Int.not_le.mpr hlink)

/-! ### One codeword (R56) -/

/-- What a decode has done when it has emitted the symbol `v`, and bit number `k'` is the next. -/
structure SymbolEmitted (s t : State) (v : Int) (k' : Nat) : Prop where
  node : t.node.toNat = 0
  consumed : bitsConsumed t = k'
  prod : t.prod.toNat = s.prod.toNat + 1
  symbol : (outAt t s.prod.toNat : Int) = v
  others : OutChangesOnlyAt s.prod.toNat s t
  frame : ChangesOnly [.node, .biti, .wordi, .prod, .out, .draws, .ports] s t

/-- Codewords are read forward. -/
theorem Codeword.le {s : State} {n k k' : Nat} {v : Int} (h : Codeword s n k v k') : k ≤ k' := by
  induction h with
  | leaf => exact Nat.le_refl _
  | link _ _ _ _ ih => exact Nat.le_of_succ_le ih

/-- From any node on the way the engine takes one step for each bit that is left of the codeword and one for the leaf. -/
theorem after_codeword {s u : State} {n k k' : Nat} {v : Int} (hcode : Codeword s n k v k') (hinputs : SameInputs s u)
    (hu : RunsAlone u) (hmore : u.prod.toNat < u.xsz.toNat) (hnode : u.node.toNat = n) (hk : bitsConsumed u = k) :
    ∃ t, after (k' - k + 1) u = .next t ∧ SymbolEmitted u t v k' := by
  induction hcode generalizing u with
  | @leaf n k hn hleaf =>
    have hentry : entryAt u u.node.toNat = entryAt s n := by rw [hnode, hinputs.entryAt_eq hn]
    have hin : u.node.toNat < u.ltlen.toNat := by rw [hnode, hinputs.ltlen]; exact hn
    obtain ⟨t, hstep, hnode', hprod, hsymbol, hothers, hframe⟩ := hu.step_leaf hmore hin (hentry ▸ hleaf)
    have hconsumed := bitsConsumed_congr (hframe .biti (by decide)) (hframe .wordi (by decide))
    rw [Nat.sub_self]
    exact ⟨t, after_succ 0 hstep, hnode', hconsumed.trans hk, hprod, hentry ▸ hsymbol, hothers, hframe.mono (by decide)⟩
  | @link n k k' v hn hlink hbit hrest ih =>
    have hentry : entryAt u u.node.toNat = entryAt s n := by rw [hnode, hinputs.entryAt_eq hn]
    have hin : u.node.toNat < u.ltlen.toNat := by rw [hnode, hinputs.ltlen]; exact hn
    have hbit' : bitsConsumed u < 16 * u.hxsz.toNat := by rw [hk, hinputs.hxsz]; exact hbit
    obtain ⟨w, hstep, hconsumed, hchild, hframe⟩ := hu.step_link hmore hin (hentry ▸ hlink) hbit'
    rw [hentry, hk, hinputs.bitAt_eq hbit] at hchild
    have hprod : w.prod.toNat = u.prod.toNat := hframe .prod (by decide)
    have hxsz : w.xsz.toNat = u.xsz.toNat := hframe .xsz (by decide)
    have hout (a : Nat) : outAt w a = outAt u a := hframe .out (by decide) a
    obtain ⟨t, hrun, hdone⟩ := ih (hinputs.trans (.of_frame hframe (by decide))) (hu.congr hframe (by decide))
      (by omega) hchild (by omega)
    have hle := hrest.le
    refine ⟨t, ?_, hdone.node, hdone.consumed, hdone.prod.trans (by rw [hprod]), hprod ▸ hdone.symbol,
      fun b hb => (hdone.others b (hprod.symm ▸ hb)).trans (hout b), hframe.trans hdone.frame (by decide) (by decide)⟩
    rw [show k' - k + 1 = (k' - (k + 1) + 1) + 1 by omega]
    exact (after_succ _ hstep).trans hrun

/-- Settles O55: the codeword read from the root, where `NODE` is again afterwards. -/
theorem codewordEmitsItsSymbol : Obligations.CodewordEmitsItsSymbol := by
  intro s v k' hagenda hbusy hmore hnode hfresh hcode
  obtain ⟨t, hrun, hdone⟩ := after_codeword hcode (.refl s) ⟨hagenda, hbusy, hfresh⟩ hmore hnode rfl
  exact ⟨t, hrun, Eq.trans (hdone.frame .status (by decide)) hbusy, hdone.node, hdone.consumed, hdone.prod, hdone.symbol,
    hdone.others, hdone.frame.of_same (hdone.node.trans hnode.symm)⟩

/-! ### A message (R66) -/

/-- What a decode has done when it has emitted the symbols `vs`, and bit number `k'` is the next. -/
structure SymbolsEmitted (s t : State) (vs : List Int) (k' : Nat) : Prop where
  node : t.node.toNat = 0
  consumed : bitsConsumed t = k'
  prod : t.prod.toNat = s.prod.toNat + vs.length
  symbols : ∀ (i : Nat) (h : i < vs.length), (outAt t (s.prod.toNat + i) : Int) = vs[i]
  others : ∀ a, a < s.prod.toNat ∨ s.prod.toNat + vs.length ≤ a → outAt t a = outAt s a
  frame : ChangesOnly [.node, .biti, .wordi, .prod, .out, .draws, .ports] s t

/-- Nothing is emitted by no step. -/
theorem SymbolsEmitted.nil {s : State} (hnode : s.node.toNat = 0) : SymbolsEmitted s s [] (bitsConsumed s) :=
  ⟨hnode, rfl, rfl, nofun, fun _ _ => rfl, .refl _ s⟩

/-- One symbol and then a list of them. -/
theorem SymbolsEmitted.cons {s t u : State} {v : Int} {vs : List Int} {k k' : Nat} (h : SymbolEmitted s t v k)
    (h' : SymbolsEmitted t u vs k') : SymbolsEmitted s u (v :: vs) k' where
  node := h'.node
  consumed := h'.consumed
  prod := by rw [h'.prod, h.prod, List.length_cons]; omega
  symbols := by
    intro i hi
    cases i with
    | zero =>
      have hkept := h'.others s.prod.toNat (.inl (by rw [h.prod]; omega))
      rw [Nat.add_zero, hkept, h.symbol, List.getElem_cons_zero]
    | succ i =>
      have hat := h'.symbols i (Nat.lt_of_succ_lt_succ hi)
      rw [h.prod] at hat
      rw [show s.prod.toNat + (i + 1) = s.prod.toNat + 1 + i by omega, hat, List.getElem_cons_succ]
  others := by
    intro a ha
    rw [List.length_cons] at ha
    rw [h'.others a (by rw [h.prod]; omega), h.others a (by omega)]
  frame := h.frame.trans h'.frame (by decide) (by decide)

/-- Messages are read forward. -/
theorem Message.le {s : State} {k k' : Nat} {vs : List Int} (h : Message s k vs k') : k ≤ k' := by
  induction h with
  | nil => exact Nat.le_refl _
  | cons hcode _ ih => exact hcode.le.trans ih

/-- From the root the engine takes one step for each bit of a message and one for each symbol. -/
theorem after_message {s u : State} {k k' : Nat} {vs : List Int} (hmsg : Message s k vs k') (hinputs : SameInputs s u)
    (hu : RunsAlone u) (hroom : u.prod.toNat + vs.length ≤ u.xsz.toNat) (hnode : u.node.toNat = 0)
    (hk : bitsConsumed u = k) : ∃ t, after (k' - k + vs.length) u = .next t ∧ SymbolsEmitted u t vs k' := by
  induction hmsg generalizing u with
  | @nil k =>
    subst hk
    exact ⟨u, by rw [Nat.sub_self]; rfl, .nil hnode⟩
  | @cons k k' k'' v vs hcode hrest ih =>
    rw [List.length_cons] at hroom
    obtain ⟨w, hfirst, hdone⟩ := after_codeword hcode hinputs hu (by omega) hnode hk
    have hxsz : w.xsz.toNat = u.xsz.toNat := hdone.frame .xsz (by decide)
    have hprod := hdone.prod
    obtain ⟨t, hothers, hdone'⟩ := ih (hinputs.trans (.of_frame hdone.frame (by decide)))
      (hu.congr hdone.frame (by decide)) (by omega) hdone.node hdone.consumed
    have hle := hcode.le
    have hle' := hrest.le
    refine ⟨t, ?_, .cons hdone hdone'⟩
    rw [List.length_cons, show k'' - k + (vs.length + 1) = (k' - k + 1) + (k'' - k' + vs.length) by omega,
      after_add _ _ hfirst]
    exact hothers

/-- Settles O56: the message from `START` on, and then the loop exit. -/
theorem messageIsDecoded : Obligations.MessageIsDecoded := by
  intro s vs k' hagenda hidle hlen hmsg
  obtain ⟨hnode, -, -, hprod, -⟩ := startDecode_registers hidle
  have halone := runsAlone_startDecode hagenda hidle
  have hxsz : (startDecode s).xsz.toNat = s.xsz.toNat := startDecode_frame s .xsz (by decide)
  obtain ⟨u, hrun, hdone⟩ := after_message hmsg (sameInputs_startDecode s) halone
    (by omega) hnode (bitsConsumed_startDecode hidle)
  have halone' := halone.congr hdone.frame (by decide)
  have huprod : u.prod.toNat = s.xsz.toNat := by rw [hdone.prod, hprod, hlen, Nat.zero_add]
  have huxsz : u.xsz.toNat = s.xsz.toNat := Eq.trans (hdone.frame .xsz (by decide)) hxsz
  obtain ⟨-, t, hexit, hstatus, -, -, hframe⟩ :=
    loopExitNeverTrails u (nextMove_nil halone'.agenda) halone'.busy (by omega)
  have hout (a : Nat) : outAt t a = outAt u a := hframe .out (by decide) a
  refine ⟨t, ?_, hstatus, Eq.trans (hframe .prod (by decide)) huprod,
    (bitsConsumed_congr (hframe .biti (by decide)) (hframe .wordi (by decide))).trans hdone.consumed,
    fun a ha => ?_, fun a ha => ?_⟩
  · rw [Nat.sub_zero, hlen] at hrun
    exact (after_add _ 1 hrun).trans (after_succ 0 hexit)
  · have hat := hdone.symbols a ha
    rw [hprod, Nat.zero_add] at hat
    rw [hout, hat]
  · rw [hout, hdone.others a (.inr (by omega))]
    exact startDecode_frame s .out (by decide) a

/-- With a leaf at the root every list of its symbol is a message of no bits (R57). -/
theorem message_of_rootLeaf {s : State} (hin : 0 < s.ltlen.toNat) (hleaf : entryAt s 0 ≤ 0) (k n : Nat) :
    Message s k (List.replicate n (-entryAt s 0)) k := by
  induction n with
  | zero => exact .nil
  | succ n ih => exact .cons (.leaf hin hleaf) ih

/-- Settles O53: the message of `XSZ` copies takes no bit. -/
theorem rootLeafDecodesToCopies : Obligations.RootLeafDecodesToCopies := by
  intro s hagenda hidle hin hleaf
  obtain ⟨t, hrun, hdone, hprod, hconsumed, hsymbols, hothers⟩ := messageIsDecoded s _ 0 hagenda hidle
    List.length_replicate (message_of_rootLeaf hin hleaf 0 s.xsz.toNat)
  rw [Nat.zero_add] at hrun
  refine ⟨t, hrun, hdone, hprod, hconsumed, fun a ha => ?_, hothers⟩
  rw [hsymbols a (by rwa [List.length_replicate]), List.getElem_replicate]

end Sys2Proof.Machine
end

section
/-! PROOFS. What holds in every state of a decode of the engine alone: no `MalformedTree` with a well-formed table
(30_encoding.md R61), the message decoded so far (40_sequencing.md R66), and determinism (R73). -/

namespace Sys2Proof.Machine

/-! ### Runs of the engine alone -/

/-- What every step keeps holds along every run. -/
theorem after_preserves {P : State → Prop} (hkeep : ∀ s t, P s → step s = .next t → P t) {k : Nat} {s t : State}
    (hs : P s) (hrun : after k s = .next t) : P t := by
  induction k generalizing s with
  | zero => cases hrun; exact hs
  | succ k ih =>
    obtain ⟨u, hstep, hrest⟩ := after_succ_next hrun
    exact ih (hkeep s u hs hstep) hrest

/-- With no other move to come a step is the engine's, or idle. -/
theorem step_alone_cases {s t : State} (hagenda : s.agenda = []) (hstep : step s = .next t) :
    (s.status = .busy ∧ EngineOutcome (beginStep s) t) ∨ (s.status ≠ .busy ∧ t = beginStep s) := by
  have hnext := nextMove_nil hagenda
  by_cases hbusy : s.status = .busy
  · exact .inl ⟨hbusy, step_engine_inv hnext hbusy hstep⟩
  · exact .inr ⟨hbusy, Host.Outcome.next.inj (hstep.symm.trans (step_engine_idle hnext hbusy))⟩

/-- The agenda stays empty. -/
theorem agenda_nil_of_step {s t : State} (hagenda : s.agenda = []) (hstep : step s = .next t) : t.agenda = [] :=
  Eq.trans (same_agenda_of_step hagenda hstep) hagenda

/-! ### Well-formed tables (R61) -/

theorem WellFormedTree.lt {s : State} {n : Nat} (h : WellFormedTree s n) : n < s.ltlen.toNat := by
  cases h <;> assumption

/-- Both children of a link in a well-formed table are roots of well-formed ones. -/
theorem WellFormedTree.child {s : State} {n : Nat} (h : WellFormedTree s n) (hlink : 0 < entryAt s n) (b : Bool) :
    WellFormedTree s (childOf (entryAt s n).toNat b) := by
  cases h with
  | leaf _ hleaf => exact absurd hlink (Int.not_lt.mpr hleaf)
  | link _ _ hone hzero =>
    cases b
    · exact hzero
    · exact hone

/-- The invariant of a decode of the well-formed table of `s`: it walks in that table, and found no fault in it. -/
structure WalksTree (s t : State) : Prop where
  agenda : t.agenda = []
  inputs : SameInputs s t
  cause : t.cause ≠ .malformedTree
  tree : t.status = .busy → WellFormedTree s t.node.toNat

/-- A leaf leads back to the root and a link to a child, both in the table. -/
theorem WalksTree.step {s t u : State} (hroot : WellFormedTree s 0) (ht : WalksTree s t)
    (hstep : step t = .next u) : WalksTree s u := by
  have hagenda := agenda_nil_of_step ht.agenda hstep
  rcases step_alone_cases ht.agenda hstep with ⟨hbusy, hout⟩ | ⟨hidle, rfl⟩
  · have hinputs : SameInputs s u := ht.inputs.trans ((sameInputs_beginStep t).trans hout.sameInputs)
    have htree := ht.tree hbusy
    have hentry : entryAt t t.node.toNat = entryAt s t.node.toNat := ht.inputs.entryAt_eq htree.lt
    have keeps (h : Same (beginStep t) u .cause) : u.cause ≠ .malformedTree := fun hc => ht.cause (Eq.trans h.symm hc)
    cases hout with
    | exit _ hstatus _ hframe => exact ⟨hagenda, hinputs, keeps (hframe .cause (by decide)), by simp [hstatus]⟩
    | offTable _ hoff =>
      have hin : t.node.toNat < t.ltlen.toNat := by rw [ht.inputs.ltlen]; exact htree.lt
      exact absurd hin (Nat.not_lt.mpr hoff)
    | leaf _ _ _ hnode _ _ _ hframe =>
      exact ⟨hagenda, hinputs, keeps (hframe .cause (by decide)), fun _ => hnode ▸ hroot⟩
    | link _ _ hlink _ hnode _ _ _ _ _ _ hframe =>
      have hlink' : 0 < entryAt s t.node.toNat := hentry ▸ hlink
      refine ⟨hagenda, hinputs, keeps (hframe .cause (by decide)), fun _ => ?_⟩
      rw [hnode, beginStep_node, beginStep_entryAt, hentry]
      exact htree.child hlink' _
    | dry _ _ _ _ hstatus hcause => exact ⟨hagenda, hinputs, by simp [hcause], by simp [hstatus]⟩
  · exact ⟨hagenda, ht.inputs.trans (sameInputs_beginStep t), ht.cause, fun hbusy => absurd hbusy hidle⟩

/-- Settles O54: the walk begins at the root, with no cause. -/
theorem wellFormedTableNeverMalformed : Obligations.WellFormedTableNeverMalformed := by
  intro s t k hagenda hidle hroot hrun
  obtain ⟨hnode, -, -, -, hcause, -, -⟩ := startDecode_registers hidle
  have hbegun : WalksTree s (startDecode s) :=
    ⟨(runsAlone_startDecode hagenda hidle).agenda, sameInputs_startDecode s, by simp [hcause],
      fun _ => hnode.symm ▸ hroot⟩
  exact (after_preserves (fun _ _ => WalksTree.step hroot) hbegun hrun).cause

/-! ### The message decoded so far (R66, R56) -/

/-- A message grows by a codeword at its end. -/
theorem Message.concat {s : State} {k k' k'' : Nat} {vs : List Int} {v : Int} (h : Message s k vs k')
    (hv : Codeword s 0 k' v k'') : Message s k (vs ++ [v]) k'' := by
  induction h with
  | nil => exact .cons hv .nil
  | cons hcode _ ih => exact .cons hcode (ih hv)

/-- The invariant of a decode of `s`: the symbols `vs` are out, their codewords end before bit `k`, and what completes the
walk from the node and bit that the engine stands at completes the codeword that begins at bit `k`. -/
structure DecodedSoFar (s t : State) (vs : List Int) (k : Nat) : Prop where
  agenda : t.agenda = []
  fresh : t.stale = []
  inputs : SameInputs s t
  message : Message s 0 vs k
  length : vs.length = t.prod.toNat
  prod_le : t.prod.toNat ≤ t.xsz.toNat
  symbols : ∀ (a : Nat) (h : a < vs.length), (outAt t a : Int) = vs[a]
  walk : ∀ v k', Codeword s t.node.toNat (bitsConsumed t) v k' → Codeword s 0 k v k'
  at_exit : t.xsz.toNat ≤ t.prod.toNat → bitsConsumed t = k
  done : t.status = .done → t.xsz.toNat ≤ t.prod.toNat

/-- `START` begins the empty message. -/
theorem decodedSoFar_startDecode {s : State} (hagenda : s.agenda = []) (hidle : s.status ≠ .busy) :
    DecodedSoFar s (startDecode s) [] 0 := by
  obtain ⟨hnode, -, -, hprod, -, hstatus, hfresh⟩ := startDecode_registers hidle
  have hconsumed := bitsConsumed_startDecode hidle
  exact
    { agenda := (runsAlone_startDecode hagenda hidle).agenda
      fresh := hfresh
      inputs := sameInputs_startDecode s
      message := .nil
      length := hprod.symm
      prod_le := by omega
      symbols := nofun
      walk := by rw [hnode, hconsumed]; exact fun _ _ => id
      at_exit := fun _ => hconsumed
      done := by simp [hstatus] }

/-- A step that changes no register but `STATE` and `CAUSE` keeps what is decoded; in `DONE` every symbol must be out. -/
theorem DecodedSoFar.congr {s t u : State} {vs : List Int} {k : Nat} (h : DecodedSoFar s t vs k)
    (hframe : ChangesOnly [.status, .cause, .agenda, .ports] t u) (hagenda : u.agenda = [])
    (hdone : u.status = .done → t.xsz.toNat ≤ t.prod.toNat) : DecodedSoFar s u vs k := by
  have hprod : u.prod.toNat = t.prod.toNat := hframe .prod (by decide)
  have hxsz : u.xsz.toNat = t.xsz.toNat := hframe .xsz (by decide)
  have hnode : u.node.toNat = t.node.toNat := hframe .node (by decide)
  have hout (a : Nat) : outAt u a = outAt t a := hframe .out (by decide) a
  have hconsumed := bitsConsumed_congr (hframe .biti (by decide)) (hframe .wordi (by decide))
  exact
    { agenda := hagenda
      fresh := Eq.trans (hframe .stale (by decide)) h.fresh
      inputs := h.inputs.trans (.of_frame hframe (by decide))
      message := h.message
      length := h.length.trans hprod.symm
      prod_le := by rw [hprod, hxsz]; exact h.prod_le
      symbols := fun a ha => by rw [hout]; exact h.symbols a ha
      walk := by rw [hnode, hconsumed]; exact h.walk
      at_exit := by rw [hprod, hxsz, hconsumed]; exact h.at_exit
      done := by rw [hprod, hxsz]; exact hdone }

/-- A leaf completes the codeword: the message has one symbol more, and the next codeword begins at the cursor. -/
theorem DecodedSoFar.leaf {s t u : State} {vs : List Int} {k : Nat} (h : DecodedSoFar s t vs k)
    (hbusy : t.status = .busy) (hmore : t.prod.toNat < t.xsz.toNat) (hin : t.node.toNat < t.ltlen.toNat)
    (hleaf : entryAt t t.node.toNat ≤ 0) (hstep : step t = .next u) :
    DecodedSoFar s u (vs ++ [-entryAt t t.node.toNat]) (bitsConsumed t) := by
  have halone : RunsAlone t := ⟨h.agenda, hbusy, h.fresh⟩
  obtain ⟨u', hstep', hnode, hprod, hsymbol, hothers, hframe⟩ := halone.step_leaf hmore hin hleaf
  obtain rfl := Host.Outcome.next.inj (hstep'.symm.trans hstep)
  have halone' := halone.congr hframe (by decide)
  have hin' : t.node.toNat < s.ltlen.toNat := h.inputs.ltlen ▸ hin
  have hentry := h.inputs.entryAt_eq hin'
  have hxsz : u'.xsz.toNat = t.xsz.toNat := hframe .xsz (by decide)
  have hconsumed := bitsConsumed_congr (hframe .biti (by decide)) (hframe .wordi (by decide))
  have hlen := h.length
  rw [hentry] at hleaf hsymbol ⊢
  exact
    { agenda := halone'.agenda
      fresh := halone'.fresh
      inputs := h.inputs.trans (.of_frame hframe (by decide))
      message := h.message.concat (h.walk _ _ (.leaf hin' hleaf))
      length := by rw [List.length_append, List.length_singleton, hprod, hlen]
      prod_le := by omega
      symbols := by
        intro a ha
        by_cases hlast : a = vs.length
        · subst hlast
          rw [List.getElem_concat_length rfl, hlen, hsymbol]
        · have ha' : a < vs.length := by simp at ha; omega
          rw [List.getElem_append_left ha', hothers a (by omega), h.symbols a ha']
      walk := by rw [hnode, hconsumed]; exact fun _ _ => id
      at_exit := fun _ => hconsumed
      done := by simp [halone'.busy] }

/-- A link is one bit of the codeword that is being read. -/
theorem DecodedSoFar.link {s t u : State} {vs : List Int} {k : Nat} (h : DecodedSoFar s t vs k)
    (hbusy : t.status = .busy) (hmore : t.prod.toNat < t.xsz.toNat) (hin : t.node.toNat < t.ltlen.toNat)
    (hlink : 0 < entryAt t t.node.toNat) (hleft : t.wordi.toNat < t.hxsz.toNat) (hstep : step t = .next u) :
    DecodedSoFar s u vs k := by
  have halone : RunsAlone t := ⟨h.agenda, hbusy, h.fresh⟩
  have hbit : bitsConsumed t < 16 * t.hxsz.toNat := (bitsConsumed_lt_iff t).mpr hleft
  obtain ⟨u', hstep', hconsumed, hchild, hframe⟩ := halone.step_link hmore hin hlink hbit
  obtain rfl := Host.Outcome.next.inj (hstep'.symm.trans hstep)
  have halone' := halone.congr hframe (by decide)
  have hin' : t.node.toNat < s.ltlen.toNat := h.inputs.ltlen ▸ hin
  have hbit' : bitsConsumed t < 16 * s.hxsz.toNat := h.inputs.hxsz ▸ hbit
  have hentry := h.inputs.entryAt_eq hin'
  have hprod : u'.prod.toNat = t.prod.toNat := hframe .prod (by decide)
  have hxsz : u'.xsz.toNat = t.xsz.toNat := hframe .xsz (by decide)
  have hout (a : Nat) : outAt u' a = outAt t a := hframe .out (by decide) a
  rw [hentry] at hlink hchild
  rw [h.inputs.bitAt_eq hbit'] at hchild
  exact
    { agenda := halone'.agenda
      fresh := halone'.fresh
      inputs := h.inputs.trans (.of_frame hframe (by decide))
      message := h.message
      length := h.length.trans hprod.symm
      prod_le := by rw [hprod, hxsz]; exact h.prod_le
      symbols := fun a ha => by rw [hout]; exact h.symbols a ha
      walk := by
        rw [hchild, hconsumed]
        exact fun v k' hrest => h.walk v k' (.link hin' hlink hbit' hrest)
      at_exit := fun hexit => by omega
      done := by simp [halone'.busy] }

/-- Every step of a decode of the engine alone keeps a message decoded so far. -/
theorem DecodedSoFar.step {s t u : State} {vs : List Int} {k : Nat} (h : DecodedSoFar s t vs k)
    (hstep : step t = .next u) : ∃ vs' k', DecodedSoFar s u vs' k' := by
  have hagenda := agenda_nil_of_step h.agenda hstep
  rcases step_alone_cases h.agenda hstep with ⟨hbusy, hout⟩ | ⟨-, rfl⟩
  · cases hout with
    | exit hexit _ _ hframe =>
      exact ⟨vs, k, h.congr (frame_of_beginStep hframe (by decide) (by decide)) hagenda fun _ => hexit⟩
    | offTable _ _ hstatus _ _ hframe =>
      exact ⟨vs, k, h.congr (frame_of_beginStep hframe (by decide) (by decide)) hagenda (by simp [hstatus])⟩
    | dry _ _ _ _ hstatus _ _ hframe =>
      exact ⟨vs, k, h.congr (frame_of_beginStep hframe (by decide) (by decide)) hagenda (by simp [hstatus])⟩
    | leaf hmore hin hleaf => exact ⟨_, _, h.leaf hbusy hmore hin hleaf hstep⟩
    | link hmore hin hlink hleft => exact ⟨_, _, h.link hbusy hmore hin hlink hleft hstep⟩
  · exact ⟨vs, k, h.congr ((beginStep_frame t).mono (by decide)) hagenda h.done⟩

/-- Settles O57: in `DONE` every symbol is out, and no bit is consumed beyond their codewords. -/
theorem doneMeansMessageDecoded : Obligations.DoneMeansMessageDecoded := by
  intro s t k hagenda hidle hrun hdone
  have hkeep (t u : State) (h : ∃ vs k, DecodedSoFar s t vs k) (hstep : step t = .next u) :
      ∃ vs k, DecodedSoFar s u vs k := by
    obtain ⟨vs, k, h⟩ := h
    exact h.step hstep
  obtain ⟨vs, k', h⟩ := after_preserves hkeep ⟨[], 0, decodedSoFar_startDecode hagenda hidle⟩ hrun
  have hexit := h.done hdone
  have hprod : t.prod.toNat = s.xsz.toNat := (Nat.le_antisymm h.prod_le hexit).trans h.inputs.xsz
  refine ⟨vs, h.length.trans hprod, ?_, hprod, h.symbols⟩
  rw [h.at_exit hexit]
  exact h.message

/-! ### Determinism (R73) -/

theorem Same.symm {s t : State} {p : Part} (h : Same s t p) : Same t s p := by
  cases p with
  | stream | link | out => exact fun a => (h a).symm
  | _ => exact Eq.symm h

/-- The parts that two decodes of the same inputs have in common at each step. -/
def runParts : List Part := [.node, .biti, .wordi, .prod, .status, .cause, .stale, .agenda]

/-- Two decodes of the same inputs, at the same step. -/
structure InStep (s t : State) : Prop where
  agenda : s.agenda = []
  fresh : s.stale = []
  inputs : SameInputs s t
  parts : ∀ p ∈ runParts, Same s t p
  symbols : ∀ a, a < s.prod.toNat → outAt t a = outAt s a

/-- `START` puts two states with the same inputs in step. -/
theorem inStep_startDecode {s t : State} (hs : s.agenda = []) (ht : t.agenda = []) (hidle : s.status ≠ .busy)
    (hidle' : t.status ≠ .busy) (h : SameInputs s t) : InStep (startDecode s) (startDecode t) := by
  obtain ⟨hnode, hbiti, hwordi, hprod, hcause, hstatus, hfresh⟩ := startDecode_registers hidle
  obtain ⟨hnode', hbiti', hwordi', hprod', hcause', hstatus', hfresh'⟩ := startDecode_registers hidle'
  have hagenda := (runsAlone_startDecode hs hidle).agenda
  have hagenda' := (runsAlone_startDecode ht hidle').agenda
  have hinputs : SameInputs (startDecode s) t := by
    rw [startDecode_of_idle hidle]
    exact ⟨h.params, h.xsz, h.hxsz, h.ltlen, h.stream, h.link⟩
  refine ⟨hagenda, hfresh, hinputs.trans (sameInputs_startDecode t), fun p hp => ?_, by simp [hprod]⟩
  cases p with
  | node => exact hnode'.trans hnode.symm
  | biti => exact BitVec.eq_of_toNat_eq (hbiti'.trans hbiti.symm)
  | wordi => exact hwordi'.trans hwordi.symm
  | prod => exact hprod'.trans hprod.symm
  | status => exact hstatus'.trans hstatus.symm
  | cause => exact hcause'.trans hcause.symm
  | stale => exact hfresh'.trans hfresh.symm
  | agenda => exact hagenda'.trans hagenda.symm
  | _ => exact absurd hp (by decide)

/-- Two steps with the same frame keep two decodes in step, when the parts of the frame come out the same. -/
theorem InStep.of_frames {ps : List Part} {s t s' t' : State} (h : InStep s t) (hs : ChangesOnly ps s s')
    (ht : ChangesOnly ps t t') (hinputs : ∀ p ∈ inputParts, p ∉ ps) (hagenda : .agenda ∉ ps) (hfresh : s'.stale = [])
    (hparts : ∀ p ∈ runParts, p ∈ ps → Same s' t' p) (hsymbols : ∀ a, a < s'.prod.toNat → outAt t' a = outAt s' a) :
    InStep s' t' where
  agenda := Eq.trans (hs .agenda hagenda) h.agenda
  fresh := hfresh
  inputs := ((SameInputs.of_frame (fun p hp => (hs p hp).symm) hinputs).trans h.inputs).trans (.of_frame ht hinputs)
  parts := by
    intro p hp
    by_cases hmem : p ∈ ps
    · exact hparts p hp hmem
    · exact ((hs p hmem).symm.trans (h.parts p hp)).trans (ht p hmem)
  symbols := hsymbols

/-- The symbols below `PROD` agree when a step touches neither. -/
theorem InStep.symbols_of_frames {ps : List Part} {s t s' t' : State} (h : InStep s t) (hs : ChangesOnly ps s s')
    (ht : ChangesOnly ps t t') (hprod : .prod ∉ ps) (hout : .out ∉ ps) (a : Nat) (ha : a < s'.prod.toNat) :
    outAt t' a = outAt s' a := by
  have hkept : s'.prod.toNat = s.prod.toNat := hs .prod hprod
  exact ((ht .out hout a).trans (h.symbols a (hkept ▸ ha))).trans (hs .out hout a).symm

/-- The same frame twice, for a step that leaves `PROD`, `OUT` and the record of stale words. -/
theorem InStep.of_frames_keeping {ps : List Part} {s t s' t' : State} (h : InStep s t) (hs : ChangesOnly ps s s')
    (ht : ChangesOnly ps t t') (hps : ∀ p ∈ inputParts ++ [.agenda, .stale, .prod, .out], p ∉ ps)
    (hparts : ∀ p ∈ runParts, p ∈ ps → Same s' t' p) : InStep s' t' :=
  h.of_frames hs ht (fun p hp => hps p (List.mem_append_left _ hp)) (hps _ (by decide))
    (Eq.trans (hs .stale (hps _ (by decide))) h.fresh) hparts
    (h.symbols_of_frames hs ht (hps _ (by decide)) (hps _ (by decide)))

/-- The tests of an engine step (R115) read the same in both decodes. -/
theorem InStep.tests {s t : State} (h : InStep s t) :
    t.prod.toNat = s.prod.toNat ∧ t.xsz.toNat = s.xsz.toNat ∧ t.node.toNat = s.node.toNat ∧
    t.ltlen.toNat = s.ltlen.toNat ∧ t.wordi.toNat = s.wordi.toNat ∧ t.hxsz.toNat = s.hxsz.toNat ∧
    (s.node.toNat < s.ltlen.toNat → entryAt t t.node.toNat = entryAt s s.node.toNat) := by
  have hnode : t.node.toNat = s.node.toNat := h.parts .node (by decide)
  refine ⟨h.parts .prod (by decide), h.inputs.xsz, hnode, h.inputs.ltlen, h.parts .wordi (by decide), h.inputs.hxsz,
    fun hin => ?_⟩
  rw [hnode]
  exact h.inputs.entryAt_eq hin

/-- Both decodes fetch the same entry. -/
theorem InStep.entryHere_eq {s t : State} (h : InStep s t) (hin : s.node.toNat < s.ltlen.toNat) :
    (entryHere t).toNat = (entryHere s).toNat := by
  have hnode : t.node.toNat = s.node.toNat := h.parts .node (by decide)
  rw [entryHere, hnode]
  exact h.inputs.link _ hin

/-- Both decodes use the same stream word. -/
theorem InStep.engineWord_eq {s t : State} (h : InStep s t) (hleft : s.wordi.toNat < s.hxsz.toNat) :
    engineWord t = engineWord s := by
  have hwordi : t.wordi.toNat = s.wordi.toNat := h.parts .wordi (by decide)
  have hfresh : t.stale = [] := Eq.trans (h.parts .stale (by decide)) h.fresh
  rw [engineWord_of_fresh hfresh, engineWord_of_fresh h.fresh, hwordi]
  exact h.inputs.stream _ hleft

/-- Both decodes emit the same symbol at a leaf. -/
theorem InStep.symbol_eq {s t : State} (h : InStep s t) (hin : s.node.toNat < s.ltlen.toNat)
    (hleaf : entryAt s s.node.toNat ≤ 0) : (negN (entryHere t)).toNat = (negN (entryHere s)).toNat := by
  obtain ⟨-, -, -, -, -, -, hentry⟩ := h.tests
  have hs : ((negN (entryHere s)).toNat : Int) = -entryAt s s.node.toNat := negN_toInt _ hleaf
  have ht : ((negN (entryHere t)).toNat : Int) = -entryAt t t.node.toNat := negN_toInt _ ((hentry hin).trans_le hleaf)
  rw [hentry hin] at ht
  omega

/-- A decode in step makes the same leaf step. -/
theorem InStep.leaf {s t s' t' : State} (h : InStep s t)
    (hnode : s'.node.toNat = 0) (hnode' : t'.node.toNat = 0) (hprod : s'.prod.toNat = s.prod.toNat + 1)
    (hprod' : t'.prod.toNat = t.prod.toNat + 1) {v v' : Nat} (hv : v' = v)
    (hout : ∀ a, outAt s' a = if a = s.prod.toNat then v else outAt s a)
    (hout' : ∀ a, outAt t' a = if a = t.prod.toNat then v' else outAt t a)
    (hframe : ChangesOnly [.node, .prod, .out, .ports] s s') (hframe' : ChangesOnly [.node, .prod, .out, .ports] t t') :
    InStep s' t' := by
  have heq : t.prod.toNat = s.prod.toNat := h.parts .prod (by decide)
  refine h.of_frames hframe hframe' (by decide) (by decide) (Eq.trans (hframe .stale (by decide)) h.fresh)
    (fun p hp hmem => ?_) (fun a ha => ?_)
  · cases p with
    | node => exact hnode'.trans hnode.symm
    | prod => exact hprod'.trans ((congrArg (· + 1) heq).trans hprod.symm)
    | out | ports => exact absurd hp (by decide)
    | _ => exact absurd hmem (by decide)
  · rw [hout, hout', heq, hv]
    split_ifs with hlast
    · rfl
    · exact h.symbols a (by omega)

/-- A decode in step makes the same link step. -/
theorem InStep.link {s t s' t' : State} (h : InStep s t) (hnode : Same s' t' .node) (hbiti : Same s' t' .biti)
    (hwordi : Same s' t' .wordi) (hfresh : s'.stale = []) (hfresh' : t'.stale = [])
    (hframe : ChangesOnly [.node, .biti, .wordi, .stale, .draws, .ports] s s')
    (hframe' : ChangesOnly [.node, .biti, .wordi, .stale, .draws, .ports] t t') : InStep s' t' := by
  refine h.of_frames hframe hframe' (by decide) (by decide) hfresh (fun p hp hmem => ?_)
    (h.symbols_of_frames hframe hframe' (by decide) (by decide))
  cases p with
  | node => exact hnode
  | biti => exact hbiti
  | wordi => exact hwordi
  | stale => exact hfresh'.trans hfresh.symm
  | draws | ports => exact absurd hp (by decide)
  | _ => exact absurd hmem (by decide)

/-- A step that writes `STATE` and `CAUSE` to the same values keeps two decodes in step. -/
theorem InStep.ends {s t s' t' : State} (h : InStep s t) (hframe : ChangesOnly [.status, .cause, .ports] s s')
    (hframe' : ChangesOnly [.status, .cause, .ports] t t') (hstatus : Same s' t' .status) (hcause : Same s' t' .cause) :
    InStep s' t' := by
  refine h.of_frames_keeping hframe hframe' (by decide) fun p hp hmem => ?_
  cases p with
  | status => exact hstatus
  | cause => exact hcause
  | ports => exact absurd hp (by decide)
  | _ => exact absurd hmem (by decide)

/-- Two decodes in step make the same engine step: the tests select the same outcome, and it comes out the same. -/
theorem EngineOutcome.inStep {s t s' t' : State} (hs : EngineOutcome s s') (ht : EngineOutcome t t')
    (h : InStep s t) (hports : t.ports = s.ports) : InStep s' t' ∧ t'.ports = s'.ports := by
  obtain ⟨hprod, hxsz, hnode, hltlen, hwordi, hhxsz, hentry⟩ := h.tests
  have hbiti : t.biti = s.biti := h.parts .biti (by decide)
  cases hs <;> cases ht
  case exit.exit _ hstatus hp hframe _ hstatus' hp' hframe' =>
    have hcause : Same s' t' .cause :=
      ((hframe .cause (by decide)).symm.trans (h.parts .cause (by decide))).trans (hframe' .cause (by decide))
    exact ⟨h.ends (hframe.mono (by decide)) (hframe'.mono (by decide)) (hstatus'.trans hstatus.symm) hcause,
      by rw [hp, hp', hports]⟩
  case offTable.offTable _ _ hstatus hcause hp hframe _ _ hstatus' hcause' hp' hframe' =>
    exact ⟨h.ends (hframe.mono (by decide)) (hframe'.mono (by decide)) (hstatus'.trans hstatus.symm)
      (hcause'.trans hcause.symm), by rw [hp, hp', hports]⟩
  case leaf.leaf _ hin hleaf hn hp hout hw hframe _ _ _ hn' hp' hout' hw' hframe' =>
    have hv := h.symbol_eq hin hleaf
    exact ⟨h.leaf hn hn' hp hp' hv hout hout' hframe hframe',
      by rw [hw, hw', hports, hnode, h.entryHere_eq hin, hprod, hv]⟩
  case link.link _ hin _ hleft hn hb hi _ hw hstale _ hframe _ _ _ _ hn' hb' hi' _ hw' hstale' _ hframe' =>
    have hword := h.engineWord_eq hleft
    have hfresh' : t.stale = [] := Eq.trans (h.parts .stale (by decide)) h.fresh
    rw [h.fresh, ite_self] at hstale
    rw [hfresh', ite_self] at hstale'
    rw [hentry hin, hword, hbiti] at hn'
    rw [hbiti] at hb'
    rw [hbiti, hwordi] at hi'
    exact ⟨h.link (hn'.trans hn.symm) (hb'.trans hb.symm) (hi'.trans hi.symm) hstale hstale' hframe hframe',
      by rw [hw, hw', hports, hnode, h.entryHere_eq hin, hwordi, hword]⟩
  case dry.dry _ hin _ _ hstatus hcause hp hframe _ _ _ _ hstatus' hcause' hp' hframe' =>
    exact ⟨h.ends hframe hframe' (hstatus'.trans hstatus.symm) (hcause'.trans hcause.symm),
      by rw [hp, hp', hports, hnode, h.entryHere_eq hin]⟩
  all_goals exfalso; omega

theorem beginStep_frame_of_nil {s : State} (hagenda : s.agenda = []) : ChangesOnly [.ports] s (beginStep s) :=
  (beginStep_frame s).of_same (by rw [Same, beginStep_agenda, hagenda, List.tail_nil])

theorem InStep.beginStep {s t : State} (h : InStep s t) : InStep (beginStep s) (beginStep t) := by
  have hagenda : t.agenda = [] := Eq.trans (h.parts .agenda (by decide)) h.agenda
  refine h.of_frames_keeping (beginStep_frame_of_nil h.agenda) (beginStep_frame_of_nil hagenda) (by decide)
    fun p hp hmem => ?_
  obtain rfl := List.mem_singleton.mp hmem
  exact absurd hp (by decide)

/-- Two decodes in step stay so, and show the same port accesses. -/
theorem InStep.step {s t s' t' : State} (h : InStep s t) (hs : step s = .next s') (ht : step t = .next t') :
    InStep s' t' ∧ t'.ports = s'.ports := by
  have hagenda : t.agenda = [] := Eq.trans (h.parts .agenda (by decide)) h.agenda
  have hstatus : t.status = s.status := h.parts .status (by decide)
  rcases step_alone_cases h.agenda hs with ⟨hbusy, hout⟩ | ⟨hidle, rfl⟩
  · rcases step_alone_cases hagenda ht with ⟨-, hout'⟩ | ⟨hidle', -⟩
    · exact hout.inStep hout' h.beginStep rfl
    · exact absurd (hstatus.trans hbusy) hidle'
  · rcases step_alone_cases hagenda ht with ⟨hbusy', -⟩ | ⟨-, rfl⟩
    · exact absurd (hstatus.symm.trans hbusy') hidle
    · exact ⟨h.beginStep, rfl⟩

/-- Along runs of one length. -/
theorem InStep.after_succ {k : Nat} {s t s' t' : State} (h : InStep s t) (hs : after (k + 1) s = .next s')
    (ht : after (k + 1) t = .next t') : InStep s' t' ∧ t'.ports = s'.ports := by
  induction k generalizing s t with
  | zero =>
    obtain ⟨u, hu, hs⟩ := after_succ_next hs
    obtain ⟨v, hv, ht⟩ := after_succ_next ht
    cases hs
    cases ht
    exact h.step hu hv
  | succ k ih =>
    obtain ⟨u, hu, hs⟩ := after_succ_next hs
    obtain ⟨v, hv, ht⟩ := after_succ_next ht
    exact ih (h.step hu hv).1 hs ht

/-- Settles O58: `START` puts the two decodes in step, and every step after it keeps them so. -/
theorem decodeDependsOnInputsOnly : Obligations.DecodeDependsOnInputsOnly := by
  intro s s' t t' k hs hs' hidle hidle' hinputs hpos hrun hrun'
  obtain ⟨k, rfl⟩ := Nat.exists_eq_succ_of_ne_zero hpos.ne'
  obtain ⟨h, hports⟩ := (inStep_startDecode hs hs' hidle hidle' hinputs).after_succ hrun hrun'
  exact ⟨h.parts .status (by decide), h.parts .cause (by decide), h.parts .node (by decide), h.parts .biti (by decide),
    h.parts .wordi (by decide), h.parts .prod (by decide), hports, h.symbols⟩

end Sys2Proof.Machine
end
